-- ==== Sys2Proof/Word.lean ====
section
/-!
DEFINITION. The two unsigned widths of the machine: bytes and 16-bit words (rules R7, R9).
-/

namespace Sys2Proof

/-- An unsigned 8-bit value, the spec's `u8` (R9). -/
abbrev Byte := BitVec 8

/-- An unsigned 16-bit value, the spec's `u16` (R9); addresses and wide registers are words. -/
abbrev Word := BitVec 16

end Sys2Proof
end

