-- ==== Sys2Proof/Syntax.lean ====
section
/-!
DEFINITION. Registers, opcodes and instructions of the h8bit CORE (rules R2, R30, R32, R101, R103).
-/

namespace Sys2Proof

/-- The eight byte registers A to H (R30). -/
inductive ByteReg where
  | a | b | c | d | e | f | g | h
  deriving DecidableEq, Repr

/-- The wide registers: the four composed pairs of R32 and the dedicated PC and SP (R30). -/
inductive WideReg where
  | ab | cd | ef | gh | pc | sp
  deriving DecidableEq, Repr

/-- An "any register" reference: a byte register or a wide one (R16, R101). -/
inductive AnyReg where
  | byte (r : ByteReg)
  | wide (w : WideReg)
  deriving DecidableEq, Repr

/-- The byte that encodes a register reference in the instruction stream (R17, R107). Which register it
names is decided by the machine's `regCode` table when the operand is fetched (R105, R109), so an
instruction carries the code. -/
abbrev RegCode := Byte

/-- The closed set of eleven opcodes (R2). -/
inductive Opcode where
  | nop | movLitReg | movLitRegWide | movRegReg | movRegMem | movMemReg
  | movLitMem | movLitMemWide | movRegPtrReg | movLitOffReg | hlt
  deriving DecidableEq, Repr

/-- An instruction: one constructor per row of the opcode table, its operands in encoding order (R103). -/
inductive Instr where
  /-- NOP, format Z (R150); also what an unassigned opcode byte decodes as (R111, R154). -/
  | nop
  /-- MOV_LIT_REG, format LB: literal byte, destination byte register (R160). -/
  | movLitReg (imm : Byte) (dst : RegCode)
  /-- MOV_LIT_REG_WIDE, format LW: literal word, destination wide register (R162). -/
  | movLitRegWide (imm : Word) (dst : RegCode)
  /-- MOV_REG_REG, format RR: source of either width, destination of the source's width (R164). -/
  | movRegReg (src dst : RegCode)
  /-- MOV_REG_MEM, format RM: source of either width, address (R170). -/
  | movRegMem (src : RegCode) (addr : Word)
  /-- MOV_MEM_REG, format MR: address, destination of either width (R172). -/
  | movMemReg (addr : Word) (dst : RegCode)
  /-- MOV_LIT_MEM, format LBM: literal byte, address (R174). -/
  | movLitMem (imm : Byte) (addr : Word)
  /-- MOV_LIT_MEM_WIDE, format LWM: literal word, address (R176). -/
  | movLitMemWide (imm addr : Word)
  /-- MOV_REG_PTR_REG, format PR: pointer wide register, destination of either width (R178). -/
  | movRegPtrReg (ptr dst : RegCode)
  /-- MOV_LIT_OFF_REG, format LOR: base word, offset wide register, destination of either width (R180). -/
  | movLitOffReg (base : Word) (off dst : RegCode)
  /-- HLT, format Z (R152). -/
  | hlt
  deriving DecidableEq, Repr

/-- The opcode an instruction is an instance of. -/
def Instr.opcode : Instr → Opcode
  | .nop => .nop
  | .movLitReg _ _ => .movLitReg
  | .movLitRegWide _ _ => .movLitRegWide
  | .movRegReg _ _ => .movRegReg
  | .movRegMem _ _ => .movRegMem
  | .movMemReg _ _ => .movMemReg
  | .movLitMem _ _ => .movLitMem
  | .movLitMemWide _ _ => .movLitMemWide
  | .movRegPtrReg _ _ => .movRegPtrReg
  | .movLitOffReg _ _ _ => .movLitOffReg
  | .hlt => .hlt

end Sys2Proof
end

