-- ==== Sys2Proof/Config.lean ====
section
/-!
DEFINITION. What is fixed for a machine when it is reset (rules R8, R44, R47, R107, R131): the bus
regions, the register code table and the `wrap16` choice. The spec makes each of them a parameter, so
State holds them as plain data and every statement about all states holds for all of them. The spec
leaves no value free, so there is no uninterpreted constant here. A device's length (R61) stands beside
its bytes in Machine/State.lean.
-/

namespace Sys2Proof

/-- A region: the inclusive bus range [start, stop] bound to one device, named by its index (R44). -/
structure Region where
  start : Word
  stop : Word
  device : Nat
  deriving DecidableEq, Repr

/-- The parameter `regCode` of R107: two partial maps from code bytes to registers, as lists of pairs. -/
structure RegCodes where
  byteCodes : List (RegCode × ByteReg)
  wideCodes : List (RegCode × WideReg)
  deriving DecidableEq, Repr

/-- The configuration of R47. `regions` is in lookup order, most recently added first (R44). -/
structure Config where
  regions : List Region
  regCodes : RegCodes
  wrap16 : Bool
  deriving DecidableEq, Repr

end Sys2Proof
end

