-- ==== Sys2Proof/Decode.lean ====
section
/-!
DEFINITION. Byte order (R10), the opcode map (R110, R111), the operand formats (R103), the decoder and the
encoder, and the classification of register codes (R107 to R109).
-/

namespace Sys2Proof

/-! ### Byte split and concatenation (R10) -/

/-- `high(v) = v[15:8]` (R10). -/
def high (v : Word) : Byte := v.extractLsb' 8 8

/-- `low(v) = v[7:0]` (R10). -/
def low (v : Word) : Byte := v.extractLsb' 0 8

/-- `cat(h, l) = (h << 8) | l` (R10). -/
def cat (h l : Byte) : Word := h ++ l

/-! ### Opcode map (R110, R111) -/

/-- The opcode byte of each opcode (R2, R110). -/
def Opcode.code : Opcode → Byte
  | .nop => 0x00
  | .movLitReg => 0x10
  | .movLitRegWide => 0x11
  | .movRegReg => 0x12
  | .movRegMem => 0x13
  | .movMemReg => 0x14
  | .movLitMem => 0x15
  | .movLitMemWide => 0x16
  | .movRegPtrReg => 0x17
  | .movLitOffReg => 0x18
  | .hlt => 0xFF

/-- Every opcode, in the order of the table of R110. -/
def allOpcodes : List Opcode :=
  [.nop, .movLitReg, .movLitRegWide, .movRegReg, .movRegMem, .movMemReg,
   .movLitMem, .movLitMemWide, .movRegPtrReg, .movLitOffReg, .hlt]

/-- The opcode byte is one of the eleven of R2. -/
def assignedOpcode (op : Byte) : Bool := allOpcodes.any fun o => o.code == op

/-- Decode of R110: exact lookup of the opcode byte; a byte with no matching variant is NOP (R111). -/
def decodeOpcode (op : Byte) : Opcode := (allOpcodes.find? fun o => o.code == op).getD .nop

/-- The size of an instruction in bytes, the opcode byte included (R106). -/
def Opcode.size : Opcode → Nat
  | .nop | .hlt => 1
  | .movLitReg | .movRegReg | .movRegPtrReg => 3
  | .movLitRegWide | .movRegMem | .movMemReg | .movLitMem => 4
  | .movLitMemWide | .movLitOffReg => 5

/-- The size of an instruction (R106). -/
def Instr.size (i : Instr) : Nat := i.opcode.size

/-! ### Decoder -/

/-- The instruction an opcode and the four bytes after it spell, by the formats of R103; a format that is
shorter leaves the later bytes alone. -/
def assemble (o : Opcode) (b1 b2 b3 b4 : Byte) : Instr :=
  match o with
  | .nop => .nop
  | .movLitReg => .movLitReg b1 b2
  | .movLitRegWide => .movLitRegWide (cat b1 b2) b3
  | .movRegReg => .movRegReg b1 b2
  | .movRegMem => .movRegMem b1 (cat b2 b3)
  | .movMemReg => .movMemReg (cat b1 b2) b3
  | .movLitMem => .movLitMem b1 (cat b2 b3)
  | .movLitMemWide => .movLitMemWide (cat b1 b2) (cat b3 b4)
  | .movRegPtrReg => .movRegPtrReg b1 b2
  | .movLitOffReg => .movLitOffReg (cat b1 b2) b3 b4
  | .hlt => .hlt

/-- Why a list of bytes is no instruction. No opcode byte is rejected (R110, R111): only bytes that are
missing are. -/
inductive DecodeError where
  /-- There is not even an opcode byte. -/
  | noBytes
  /-- The opcode byte `op` asks for more operand bytes than follow it. -/
  | truncated (op : Byte)
  deriving DecidableEq, Repr

/-- The decoder on any bytes: the first instruction and the bytes after it, or the reason there is none. -/
def decode : List Byte → Except DecodeError (Instr × List Byte)
  | [] => .error .noBytes
  | op :: rest =>
    let o := decodeOpcode op
    if rest.length + 1 < o.size then .error (.truncated op)
    else .ok (assemble o (rest.getD 0 0) (rest.getD 1 0) (rest.getD 2 0) (rest.getD 3 0),
      rest.drop (o.size - 1))

/-! ### Encoder -/

/-- The bytes of an instruction, opcode first, words high byte first (R102, R103). -/
def encode : Instr → List Byte
  | .nop => [Opcode.nop.code]
  | .movLitReg imm dst => [Opcode.movLitReg.code, imm, dst]
  | .movLitRegWide imm dst => [Opcode.movLitRegWide.code, high imm, low imm, dst]
  | .movRegReg src dst => [Opcode.movRegReg.code, src, dst]
  | .movRegMem src addr => [Opcode.movRegMem.code, src, high addr, low addr]
  | .movMemReg addr dst => [Opcode.movMemReg.code, high addr, low addr, dst]
  | .movLitMem imm addr => [Opcode.movLitMem.code, imm, high addr, low addr]
  | .movLitMemWide imm addr =>
    [Opcode.movLitMemWide.code, high imm, low imm, high addr, low addr]
  | .movRegPtrReg ptr dst => [Opcode.movRegPtrReg.code, ptr, dst]
  | .movLitOffReg base off dst => [Opcode.movLitOffReg.code, high base, low base, off, dst]
  | .hlt => [Opcode.hlt.code]

/-! ### The opcode table's words -/

/-- Byte `k` of a table word: bit 0 is the least significant bit of the first byte. -/
def tableByte (nbits w k : Nat) : Byte := BitVec.ofNat 8 (w % 2 ^ nbits / 2 ^ (8 * k))

/-- The five bytes of a table word, first byte first; every bit above `nbits` is 0. -/
def tableBytes (nbits w : Nat) : List Byte := (List.range 5).map (tableByte nbits w)

/-- The instruction the decoder reads from a table word. -/
def decodeTableWord (nbits w : Nat) : Option Instr :=
  match decode (tableBytes nbits w) with
  | .ok (i, _) => some i
  | .error _ => none

/-! ### Register codes (R107 to R109) -/

/-- The default table of R108. -/
def defaultRegCodes : RegCodes where
  byteCodes := [(0x01, .a), (0x02, .b), (0x03, .c), (0x04, .d),
    (0x05, .e), (0x06, .f), (0x07, .g), (0x08, .h)]
  wideCodes := [(0xA0, .ab), (0xA1, .cd), (0xA2, .ef), (0xA3, .gh), (0xF0, .pc), (0xF1, .sp)]

/-- The partial map `byteOf` of R107, the test of `ClassByte` (R109). -/
def RegCodes.byteOf (t : RegCodes) (c : RegCode) : Option ByteReg := t.byteCodes.lookup c

/-- The partial map `wideOf` of R107, the test of `ClassWide` (R109). -/
def RegCodes.wideOf (t : RegCodes) (c : RegCode) : Option WideReg := t.wideCodes.lookup c

/-- The test of `ClassAny` (R109): the byte codes first, then the wide codes. -/
def RegCodes.anyOf (t : RegCodes) (c : RegCode) : Option AnyReg :=
  match t.byteOf c with
  | some r => some (.byte r)
  | none =>
    match t.wideOf c with
    | some w => some (.wide w)
    | none => none

end Sys2Proof
end

