-- ==== Sys2Proof/Machine/Platform.lean ====
section
/-!
DEFINITION. The bus configuration the platform sets before reset (R44, R45, R234), and the platform of
`State.reset`.
-/

namespace Sys2Proof.Machine

/-- `busStart` of R45: the minimum of all region starts, absent iff there is no region. -/
def busStart : List Region → Option Word
  | [] => none
  | r :: rs =>
    match busStart rs with
    | none => some r.start
    | some lo => some (if r.start ≤ lo then r.start else lo)

/-- `busEnd` of R45: the maximum of all region ends, absent iff there is no region. -/
def busEnd : List Region → Option Word
  | [] => none
  | r :: rs =>
    match busEnd rs with
    | none => some r.stop
    | some hi => some (if hi ≤ r.stop then r.stop else hi)

/-- Adding a region prepends it to the list, which makes it first for lookup (R44). -/
def addRegion (c : Config) (start stop : Word) (device : Nat) : Config :=
  { c with regions := ⟨start, stop, device⟩ :: c.regions }

/-- The bus before any region is added, with the default parameters of R8. -/
def emptyBus : Config := { regions := [], regCodes := defaultRegCodes, wrap16 := false }

/-- The length of the fixed-size reference device (R7, R62). -/
def fixedArrayLen : Nat := 65536

/-- Platform FULL of spec/95_test_vectors.md section 0: one region over the whole space. DESIGN CHOICE
(log entry 1): the spec gives `regions` no default. -/
def fullBus : Config := addRegion emptyBus 0x0000 0xFFFF 0

end Sys2Proof.Machine
end

