-- ==== Sys2Proof/WellFormed.lean ====
section
/-!
DEFINITION. Checks on instructions and on configurations. An instruction is well formed for a code table
when every register code in it names a register of the kind its field asks for (R101, R109, R112); the
machine runs the others too, up to the InvalidRegister they raise. A configuration is well formed when
R44 and R107 allow it.
-/

namespace Sys2Proof

/-- The code is a legal `rb` field (R101, R109). -/
def RegCodes.isByte (t : RegCodes) (c : RegCode) : Bool := (t.byteOf c).isSome

/-- The code is a legal `rw` field (R101, R109). -/
def RegCodes.isWide (t : RegCodes) (c : RegCode) : Bool := (t.wideOf c).isSome

/-- The code is a legal `ra` field (R101, R109). -/
def RegCodes.isAny (t : RegCodes) (c : RegCode) : Bool := (t.anyOf c).isSome

/-- The codes are a legal `ra`, `rx` pair: the second is of the width the first one names (R101, R164). -/
def RegCodes.isPair (t : RegCodes) (src dst : RegCode) : Bool :=
  match t.anyOf src with
  | some (.byte _) => t.isByte dst
  | some (.wide _) => t.isWide dst
  | none => false

/-- No register code of the instruction is an illegal operand encoding (R112) under the table. -/
def Instr.wf (t : RegCodes) : Instr → Bool
  | .nop => true
  | .movLitReg _ dst => t.isByte dst
  | .movLitRegWide _ dst => t.isWide dst
  | .movRegReg src dst => t.isPair src dst
  | .movRegMem src _ => t.isAny src
  | .movMemReg _ dst => t.isAny dst
  | .movLitMem _ _ => true
  | .movLitMemWide _ _ => true
  | .movRegPtrReg ptr dst => t.isWide ptr && t.isAny dst
  | .movLitOffReg _ off dst => t.isWide off && t.isAny dst
  | .hlt => true

/-- R107: the two maps are functions of the code with disjoint domains, and each is injective. -/
def RegCodes.wf (t : RegCodes) : Bool :=
  decide ((t.byteCodes.map Prod.fst ++ t.wideCodes.map Prod.fst).Nodup) &&
  decide (t.byteCodes.map Prod.snd).Nodup && decide (t.wideCodes.map Prod.snd).Nodup

/-- R44: no region has start > end. -/
def regionsOrdered (rs : List Region) : Bool := rs.all fun r => decide (r.start ≤ r.stop)

/-- R44: each region's device is one of the `n` attached devices, and each attached device is bound to exactly one
region, that is, no device is bound twice and every device is bound. -/
def devicesBoundOnce (n : Nat) (rs : List Region) : Bool :=
  rs.all (fun r => decide (r.device < n)) && decide (rs.map Region.device).Nodup &&
  (List.range n).all fun d => rs.any fun r => r.device == d

/-- A configuration over `n` devices that reset accepts (R44, R107, R230). -/
def Config.wf (n : Nat) (c : Config) : Bool :=
  !c.regions.isEmpty && regionsOrdered c.regions && devicesBoundOnce n c.regions && c.regCodes.wf

end Sys2Proof
end

