-- ==== Sys2Proof/Machine/State.lean ====
section
/-!
DEFINITION. The machine state of R47 as plain data, the terminating conditions of R201, the reasons a step
or a reset can stop, and the state after reset (R48, R231).
-/

namespace Sys2Proof.Machine

/-- The causes a Faulted status records (R201, rows 1 to 5), with the value each carries. -/
inductive Cause where
  /-- An operand byte named no register of the kind asked for; carries the code byte (R109, R134). -/
  | invalidRegister (code : Byte)
  /-- A bus access fell outside: the bus address no region holds (R66), or the device-relative address past
  the device's length (R69). -/
  | outOfBounds (addr : Word)
  /-- Reset over an empty bus only (R205, R230); no step records it. -/
  | noMemory
  /-- A backend-specific failure; the devices of this spec never raise it (R206). The spec says of what it records only
  "a backend-specific value" (R201). DESIGN CHOICE (log entry 12): the value is a natural number. -/
  | device (other : Nat)
  /-- An increment of this address passed 0xFFFF with wrap16 = false (R131). -/
  | addressOverflow (addr : Word)
  deriving DecidableEq, Repr

/-- A terminating condition (R201): Halt, "a normal termination signal, not a fault", or a fault. -/
inductive Condition where
  | halt
  | fault (c : Cause)
  deriving DecidableEq, Repr

/-- The engine's run state (R40). -/
inductive Status where
  | running
  | halted
  | faulted (c : Cause)
  deriving DecidableEq, Repr

/-- A device (R61, R62): its length and its bytes. `cells` lists (device-relative address, byte), addresses
strictly rising, no byte 0x00; an address that is not listed holds 0x00. -/
structure Device where
  len : Nat
  cells : List Host.Cell
  deriving DecidableEq, Repr

/-- The whole machine state (R47): the byte registers, PC, SP, the status, the devices' bytes, and the fixed
configuration. A composed wide register has no storage of its own (R34). -/
structure State where
  a : Byte
  b : Byte
  c : Byte
  d : Byte
  e : Byte
  f : Byte
  g : Byte
  h : Byte
  pc : Word
  sp : Word
  status : Status
  devices : List Device
  cfg : Config
  deriving DecidableEq, Repr

/-- Why the machine has no next state. -/
inductive Fault where
  /-- Raised by `step` when the status is Halted: a stopped engine has no step (R138). Safe. -/
  | engineHalted
  /-- Raised by `step` when the status is Faulted with cause `c`: no step (R138). Safe. -/
  | engineFaulted (c : Cause)
  /-- Raised by `resetOn` over an empty bus: NoMemory, and no machine state exists (R230). Safe. -/
  | noMemory
  deriving DecidableEq, Repr

/-- Why the model gives something no meaning. No step is refused; the others are `resetOn`'s. -/
inductive Refusal where
  /-- An instruction whose meaning is not written; no arm of `exec` answers it. Safe. -/
  | notModelled (mnemonic : String)
  /-- Raised by `resetOn`: a region has start > end (R44, D10). Safe. -/
  | reversedRegion
  /-- Raised by `resetOn`: a region names no attached device, or an attached device is not bound to
  exactly one region (R44). Safe. -/
  | deviceBinding
  /-- Raised by `resetOn`: the register code table breaks R107. Safe. -/
  | ambiguousRegCodes
  /-- Raised by `resetOn`: a device image is not in canonical form or outruns its device. Safe. -/
  | badDeviceImage
  deriving DecidableEq, Repr

/-- The state right after reset (R48, R231) on the platform FULL, its fixed-size device all zero (R232). -/
def State.reset : State where
  a := 0x00
  b := 0x00
  c := 0x00
  d := 0x00
  e := 0x00
  f := 0x00
  g := 0x00
  h := 0x00
  pc := 0x0000
  sp := 0xFFFF
  status := .running
  devices := [⟨fixedArrayLen, []⟩]
  cfg := fullBus

end Sys2Proof.Machine
end

