-- ==== Sys2Proof/Machine/Ops.lean ====
section
/-!
DEFINITION. The shared operations: registers (R32 to R35), device bytes (R61, R62), the bus (R65 to R73),
the address increment (R131), and raising a condition with the stop it leads to (R14, R200).
-/

namespace Sys2Proof.Machine

/-! ### Registers -/

/-- `x[r]` (R11). -/
def State.getByte (s : State) : ByteReg → Byte
  | .a => s.a
  | .b => s.b
  | .c => s.c
  | .d => s.d
  | .e => s.e
  | .f => s.f
  | .g => s.g
  | .h => s.h

/-- `x[r] <- v` (R11). -/
def State.setByte (s : State) (r : ByteReg) (v : Byte) : State :=
  match r with
  | .a => { s with a := v }
  | .b => { s with b := v }
  | .c => { s with c := v }
  | .d => { s with d := v }
  | .e => { s with e := v }
  | .f => { s with f := v }
  | .g => { s with g := v }
  | .h => { s with h := v }

/-- The halves (high, low) of a composed wide register (R32); PC and SP have none (R30). -/
def halves : WideReg → Option (ByteReg × ByteReg)
  | .ab => some (.a, .b)
  | .cd => some (.c, .d)
  | .ef => some (.e, .f)
  | .gh => some (.g, .h)
  | .pc => none
  | .sp => none

/-- `W[w]`, by the composition law (R33). -/
def State.getWide (s : State) : WideReg → Word
  | .ab => cat s.a s.b
  | .cd => cat s.c s.d
  | .ef => cat s.e s.f
  | .gh => cat s.g s.h
  | .pc => s.pc
  | .sp => s.sp

/-- `W[w] <- v`, by the composition law (R33). -/
def State.setWide (s : State) (w : WideReg) (v : Word) : State :=
  match w with
  | .ab => { s with a := high v, b := low v }
  | .cd => { s with c := high v, d := low v }
  | .ef => { s with e := high v, f := low v }
  | .gh => { s with g := high v, h := low v }
  | .pc => { s with pc := v }
  | .sp => { s with sp := v }

/-! ### Device bytes -/

/-- What a device byte that no cell lists holds: 0x00, the content of the zero-initialised array (R62, R232). -/
def unlistedByte : Byte := 0x00

/-- The byte at a device-relative address. -/
def cellRead : List Host.Cell → Nat → Byte
  | [], _ => unlistedByte
  | (k, v) :: m, t => if k = t then v else cellRead m t

/-- Puts a byte in front of later cells; a byte equal to the unlisted one is not listed. -/
def cellCons (t : Nat) (v : Byte) (m : List Host.Cell) : List Host.Cell :=
  if v = unlistedByte then m else (t, v) :: m

/-- Writes one byte and keeps the canonical form. -/
def cellWrite : List Host.Cell → Nat → Byte → List Host.Cell
  | [], t, v => cellCons t v []
  | (k, u) :: m, t, v =>
    if t < k then cellCons t v ((k, u) :: m)
    else if t = k then cellCons t v m
    else (k, u) :: cellWrite m t v

/-- The canonical form of a device's cells: addresses strictly rising and inside the device, no cell equal to
an unlisted byte. -/
def Device.wf (dev : Device) : Bool :=
  decide (dev.cells.Pairwise fun x y => x.1 < y.1) &&
  dev.cells.all fun x => decide (x.1 < dev.len) && decide (x.2 ≠ unlistedByte)

/-- Every device of the memory is in canonical form. -/
def Memory.wf (m : List Device) : Bool := m.all Device.wf

/-- One byte of memory: a device and a device-relative address inside it. -/
structure Slot where
  device : Nat
  offset : Nat
  deriving DecidableEq, Repr

/-- The byte `mem_d[t]` (R62). -/
def State.slotByte (s : State) (x : Slot) : Byte :=
  match s.devices[x.device]? with
  | some dev => cellRead dev.cells x.offset
  | none => unlistedByte

/-- `mem_d[t] <- v` (R62). -/
def State.setSlot (s : State) (x : Slot) (v : Byte) : State :=
  { s with devices := s.devices.modify x.device fun dev =>
      { dev with cells := cellWrite dev.cells x.offset v } }

/-- The device has a byte at this device-relative address: the bounds check of R62. -/
def State.hasByte (s : State) (d t : Nat) : Bool :=
  match s.devices[d]? with
  | some dev => decide (t < dev.len)
  | none => false

/-! ### The bus -/

/-- The inclusive range of the region contains the address (R65). -/
def regionHolds (r : Region) (a : Word) : Bool := decide (r.start ≤ a) && decide (a ≤ r.stop)

/-- `Lookup` of R65: the first region, most recently added first, that contains the address. -/
def lookup (rs : List Region) (a : Word) : Option Region := rs.find? fun r => regionHolds r a

/-- Where a bus byte access at `a` lands (R65 to R67, R69): the byte that serves `a`; or OutOfBounds with the
bus address when no region contains it (R66), with the translated address when it is not inside the device
(R62, R69). A region whose device is not attached behaves as one over an empty device (log entry 15). -/
def State.route (s : State) (a : Word) : Except Cause Slot :=
  match lookup s.cfg.regions a with
  | none => .error (.outOfBounds a)
  | some r =>
    let t := a - r.start
    if s.hasByte r.device t.toNat then .ok ⟨r.device, t.toNat⟩
    else .error (.outOfBounds t)

/-! ### Raising a condition -/

/-- A line of pseudocode: it changes the state and gives a value, or raises a condition; what was done before
the raise stays done (R14). -/
abbrev M (α : Type) := EStateM Condition State α

/-- `raise E` (R14). -/
def raise {α : Type} (c : Condition) : M α := fun s => .error c s

/-- The one consequence of a raised condition (R200): the status becomes Halted or Faulted; nothing else is
saved and control goes nowhere (R208). There is no return from it (R209). -/
def State.stopWith (s : State) : Condition → State
  | .halt => { s with status := .halted }
  | .fault c => { s with status := .faulted c }

/-- The end of a step (R136, R200): with no error raised the state is the next one; with a condition raised the
next state is the stopped one. -/
def conclude (r : EStateM.Result Condition State Unit) : Host.Outcome State Fault Refusal :=
  match r with
  | .ok _ s => .next s
  | .error c s => .next (s.stopWith c)

/-- The index R201 gives each terminating condition (naming only, D13). -/
def Condition.index : Condition → Nat
  | .halt => 0
  | .fault (.invalidRegister _) => 1
  | .fault (.outOfBounds _) => 2
  | .fault .noMemory => 3
  | .fault (.device _) => 4
  | .fault (.addressOverflow _) => 5

/-! ### Registers and memory as pseudocode lines -/

/-- Reads a byte register; it cannot fail (R35). -/
def readByte (r : ByteReg) : M Byte := fun s => .ok (s.getByte r) s

/-- Writes a byte register; it cannot fail (R35). -/
def writeByte (r : ByteReg) (v : Byte) : M Unit := fun s => .ok () (s.setByte r v)

/-- Reads a wide register; it cannot fail (R35). -/
def readWide (w : WideReg) : M Word := fun s => .ok (s.getWide w) s

/-- Writes a wide register; it cannot fail (R35). -/
def writeWide (w : WideReg) (v : Word) : M Unit := fun s => .ok () (s.setWide w v)

/-- `Inc16` (R131). -/
def inc16 (a : Word) (k : Nat) : M Word := fun s =>
  if a.toNat + k ≤ 0xFFFF then .ok (a + BitVec.ofNat 16 k) s
  else if s.cfg.wrap16 then .ok (a + BitVec.ofNat 16 k) s
  else .error (.fault (.addressOverflow a)) s

/-- `BusRead8` (R67), which is `MemRead(a, 1)` (R70). -/
def memRead8 (a : Word) : M Byte := fun s =>
  match s.route a with
  | .ok x => .ok (s.slotByte x) s
  | .error c => .error (.fault c) s

/-- `BusWrite8` (R67), which is `MemWrite(a, 1, v)` (R71). -/
def memWrite8 (a : Word) (v : Byte) : M Unit := fun s =>
  match s.route a with
  | .ok x => .ok () (s.setSlot x v)
  | .error c => .error (.fault c) s

/-- `MemRead(a, 2)` (R72): two byte reads, high byte first, each routed by its own address. -/
def memRead16 (a : Word) : M Word := do
  let h ← memRead8 a
  let a2 ← inc16 a 1
  let l ← memRead8 a2
  pure (cat h l)

/-- `MemWrite(a, 2, v)` (R73): two byte writes, high byte first; a first byte written stays written. -/
def memWrite16 (a : Word) (v : Word) : M Unit := do
  memWrite8 a (high v)
  let a2 ← inc16 a 1
  memWrite8 a2 (low v)

/-! ### Bytes seen from outside an instruction -/

/-- The byte a read at `a` would give; 0x00 where the read would fail, and then a fetch there has failed
already and the value is used by nothing. -/
def State.peek (s : State) (a : Word) : Byte :=
  match s.route a with
  | .ok x => s.slotByte x
  | .error _ => unlistedByte

/-- Puts a byte where a bus access at `a` lands; an address that serves no byte takes none. -/
def State.poke (s : State) (a : Word) (v : Byte) : State :=
  match s.route a with
  | .ok x => s.setSlot x v
  | .error _ => s

end Sys2Proof.Machine
end

