-- ==== Sys2Proof/Machine/Operands.lean ====
section
/-!
DEFINITION. Fetching from the instruction stream (R132 to R134), the operand forms of R101, and access to a
register of either width (R135).

The bus reads of a fetch stand in `fetch8` and `fetch16`. `step` decodes an instruction from the bytes at PC,
and a meaning takes its operands from the instruction; it still performs each operand's fetch on the bus, in
order, since a fetch moves PC and can fail (R105). `operand8 b` is that fetch of an operand byte that was
read as `b` (log entry 5).
-/

namespace Sys2Proof.Machine

/-! ### Fetch -/

/-- `Fetch8` (R132): PC is advanced before the bus read. -/
def fetch8 : M Byte := do
  let a ← readWide .pc
  let a1 ← inc16 a 1
  writeWide .pc a1
  memRead8 a

/-- `Fetch16` (R133): PC is advanced by 2 before the bus reads. -/
def fetch16 : M Word := do
  let a ← readWide .pc
  let a2 ← inc16 a 2
  writeWide .pc a2
  memRead16 a

/-! ### Classification of a fetched code (R109) -/

/-- `ClassByte` (R109). -/
def classByte (c : RegCode) : M ByteReg := fun s =>
  match s.cfg.regCodes.byteOf c with
  | some r => .ok r s
  | none => .error (.fault (.invalidRegister c)) s

/-- `ClassWide` (R109). -/
def classWide (c : RegCode) : M WideReg := fun s =>
  match s.cfg.regCodes.wideOf c with
  | some w => .ok w s
  | none => .error (.fault (.invalidRegister c)) s

/-- `ClassAny` (R109). -/
def classAny (c : RegCode) : M AnyReg := fun s =>
  match s.cfg.regCodes.anyOf c with
  | some r => .ok r s
  | none => .error (.fault (.invalidRegister c)) s

/-! ### Operands of a decoded instruction -/

/-- The fetch of an `imm8` operand (R101, R132). -/
def operand8 (b : Byte) : M Byte := do
  let _ ← fetch8
  pure b

/-- The fetch of an `imm16` or `addr16` operand (R101, R133). -/
def operand16 (w : Word) : M Word := do
  let _ ← fetch16
  pure w

/-- `FetchByteReg` (R134): field `rb`. -/
def operandByteReg (c : RegCode) : M ByteReg := do
  let c ← operand8 c
  classByte c

/-- `FetchWideReg` (R134): field `rw`. -/
def operandWideReg (c : RegCode) : M WideReg := do
  let c ← operand8 c
  classWide c

/-- `FetchAnyReg` (R134): field `ra`. -/
def operandAnyReg (c : RegCode) : M AnyReg := do
  let c ← operand8 c
  classAny c

/-! ### A register of either width against memory (R135) -/

/-- `MemWrite(a, Width(r), ReadReg(r))` (R135, R170). -/
def storeFrom (r : AnyReg) (a : Word) : M Unit :=
  match r with
  | .byte r => do
    let v ← readByte r
    memWrite8 a v
  | .wide w => do
    let v ← readWide w
    memWrite16 a v

/-- `WriteReg(r, MemRead(a, Width(r)))` (R135, R172): the whole read comes before the register write. -/
def loadInto (r : AnyReg) (a : Word) : M Unit :=
  match r with
  | .byte r => do
    let v ← memRead8 a
    writeByte r v
  | .wide w => do
    let v ← memRead16 a
    writeWide w v

/-- The address of MOV_LIT_OFF_REG: `base +w W[o]`, wrapping, never raising (R15, R104, R180). -/
def offsetAddress (base offset : Word) : Word := base + offset

/-! ### The bytes of the next instruction -/

/-- The instruction whose opcode byte `op` was just fetched: its operand bytes are those at PC (R100, R103). -/
def State.instrAt (s : State) (op : Byte) : Instr :=
  assemble (decodeOpcode op) (s.peek s.pc) (s.peek (s.pc + 1#16)) (s.peek (s.pc + 2#16)) (s.peek (s.pc + 3#16))

end Sys2Proof.Machine
end

