-- ==== Sys2Proof/Machine/Control.lean ====
section
/-!
DEFINITION. The meanings of NOP and HLT (spec/41_control.md). Each is the `Execute` part, run after the opcode
fetch has advanced PC by 1. There are no flags in this hardware (R42).
-/

namespace Sys2Proof.Machine

/-- NOP (R150), and every unassigned opcode (R154). -/
def execNop (s : State) : Host.Outcome State Fault Refusal :=
  conclude ((pure () : M Unit) s)

/-- HLT (R152). -/
def execHlt (s : State) : Host.Outcome State Fault Refusal :=
  conclude ((raise .halt : M Unit) s)

end Sys2Proof.Machine
end

