-- ==== Sys2Proof/Machine/MoveMemory.lean ====
section
/-!
DEFINITION. The meanings of the memory moves (spec/43_move_memory.md), each the `Execute` part, run after the
opcode fetch has advanced PC by 1.
-/

namespace Sys2Proof.Machine

/-- MOV_REG_MEM (R170): the source is read after both fetches (D8). -/
def execMovRegMem (src : RegCode) (addr : Word) (s : State) : Host.Outcome State Fault Refusal :=
  conclude ((do
    let r ← operandAnyReg src
    let a ← operand16 addr
    storeFrom r a : M Unit) s)

/-- MOV_MEM_REG (R172). -/
def execMovMemReg (addr : Word) (dst : RegCode) (s : State) : Host.Outcome State Fault Refusal :=
  conclude ((do
    let a ← operand16 addr
    let r ← operandAnyReg dst
    loadInto r a : M Unit) s)

/-- MOV_LIT_MEM (R174). -/
def execMovLitMem (imm : Byte) (addr : Word) (s : State) : Host.Outcome State Fault Refusal :=
  conclude ((do
    let v ← operand8 imm
    let a ← operand16 addr
    memWrite8 a v : M Unit) s)

/-- MOV_LIT_MEM_WIDE (R176). -/
def execMovLitMemWide (imm addr : Word) (s : State) : Host.Outcome State Fault Refusal :=
  conclude ((do
    let v ← operand16 imm
    let a ← operand16 addr
    memWrite16 a v : M Unit) s)

/-- MOV_REG_PTR_REG (R178): the pointer is resolved before the destination is fetched. -/
def execMovRegPtrReg (ptr dst : RegCode) (s : State) : Host.Outcome State Fault Refusal :=
  conclude ((do
    let p ← operandWideReg ptr
    let a ← readWide p
    let r ← operandAnyReg dst
    loadInto r a : M Unit) s)

/-- MOV_LIT_OFF_REG (R180): the address is computed before the destination is fetched. -/
def execMovLitOffReg (base : Word) (off dst : RegCode) (s : State) : Host.Outcome State Fault Refusal :=
  conclude ((do
    let b ← operand16 base
    let o ← operandWideReg off
    let v ← readWide o
    let r ← operandAnyReg dst
    loadInto r (offsetAddress b v) : M Unit) s)

end Sys2Proof.Machine
end

