-- ==== Sys2Proof/Machine/MoveRegister.lean ====
section
/-!
DEFINITION. The meanings of the register moves (spec/42_move_register.md), each the `Execute` part, run after
the opcode fetch has advanced PC by 1.
-/

namespace Sys2Proof.Machine

/-- MOV_LIT_REG (R160). -/
def execMovLitReg (imm : Byte) (dst : RegCode) (s : State) : Host.Outcome State Fault Refusal :=
  conclude ((do
    let v ← operand8 imm
    let r ← operandByteReg dst
    writeByte r v : M Unit) s)

/-- MOV_LIT_REG_WIDE (R162). -/
def execMovLitRegWide (imm : Word) (dst : RegCode) (s : State) : Host.Outcome State Fault Refusal :=
  conclude ((do
    let v ← operand16 imm
    let w ← operandWideReg dst
    writeWide w v : M Unit) s)

/-- What MOV_REG_REG does once its source is known: the destination is fetched at the source's width, and the
source is read after both fetches (R164, D8). -/
def copyFrom (src : AnyReg) (dst : RegCode) : M Unit :=
  match src with
  | .byte rs => do
    let rd ← operandByteReg dst
    let v ← readByte rs
    writeByte rd v
  | .wide ws => do
    let wd ← operandWideReg dst
    let v ← readWide ws
    writeWide wd v

/-- MOV_REG_REG (R164). -/
def execMovRegReg (src dst : RegCode) (s : State) : Host.Outcome State Fault Refusal :=
  conclude ((do
    let r ← operandAnyReg src
    copyFrom r dst : M Unit) s)

end Sys2Proof.Machine
end

