-- ==== Sys2Proof/Machine/Dispatch.lean ====
section
/-!
DEFINITION. One arm per instruction.
-/

namespace Sys2Proof.Machine

/-- The effect of an instruction whose opcode byte has been fetched (R136). -/
def exec (i : Instr) (s : State) : Host.Outcome State Fault Refusal :=
  match i with
  | .nop => Sys2Proof.Machine.execNop s
  | .movLitReg imm dst => Sys2Proof.Machine.execMovLitReg imm dst s
  | .movLitRegWide imm dst => Sys2Proof.Machine.execMovLitRegWide imm dst s
  | .movRegReg src dst => Sys2Proof.Machine.execMovRegReg src dst s
  | .movRegMem src addr => Sys2Proof.Machine.execMovRegMem src addr s
  | .movMemReg addr dst => Sys2Proof.Machine.execMovMemReg addr dst s
  | .movLitMem imm addr => Sys2Proof.Machine.execMovLitMem imm addr s
  | .movLitMemWide imm addr => Sys2Proof.Machine.execMovLitMemWide imm addr s
  | .movRegPtrReg ptr dst => Sys2Proof.Machine.execMovRegPtrReg ptr dst s
  | .movLitOffReg base off dst => Sys2Proof.Machine.execMovLitOffReg base off dst s
  | .hlt => Sys2Proof.Machine.execHlt s

end Sys2Proof.Machine
end

