-- ==== Sys2Proof/Machine/Step.lean ====
section
/-!
DEFINITION. One instruction cycle (R136) and the load of one instruction where it fetches.
-/

namespace Sys2Proof.Machine

/-- One step (R136): fetch the opcode byte, decode, execute. A stopped engine has no step (R138). -/
def step (s : State) : Host.Outcome State Fault Refusal :=
  match s.status with
  | .halted => .fault .engineHalted
  | .faulted c => .fault (.engineFaulted c)
  | .running =>
    match fetch8 s with
    | .error c s' => .next (s'.stopWith c)
    | .ok op s' => exec (s'.instrAt op) s'

/-- Puts a byte where the byte fetch `k` past PC reads, if a fetch can get there (R131). -/
def State.placeByte (s : State) (k : Nat) (v : Byte) : State :=
  if s.pc.toNat + k ≤ 0xFFFF ∨ s.cfg.wrap16 = true then s.poke (s.pc + BitVec.ofNat 16 k) v else s

/-- The instruction of a table word stored at PC and the four addresses after it, through the bus. -/
def State.withFetchWord (s : State) (nbits w : Nat) : State :=
  (List.range 5).foldl (fun t k => t.placeByte k (tableByte nbits w k)) s

end Sys2Proof.Machine
end

