-- ==== Sys2Proof/Machine/Cycle.lean ====
section
/-!
DEFINITION. The instruction cycle written once more, word for word as the spec writes it (R136 with the
pseudocode of spec/41 to 43): the decoded opcode alone selects the code, and every operand is the value its
fetch reads from the bus. `Machine/Step.lean` is the machine; an obligation says the two are equal.
-/

namespace Sys2Proof.Machine

/-- `FetchByteReg` (R134). -/
def fetchByteReg : M ByteReg := do
  let c ← fetch8
  classByte c

/-- `FetchWideReg` (R134). -/
def fetchWideReg : M WideReg := do
  let c ← fetch8
  classWide c

/-- `FetchAnyReg` (R134). -/
def fetchAnyReg : M AnyReg := do
  let c ← fetch8
  classAny c

/-- `Execute` of the spec, one pseudocode block per opcode (R150 to R180). -/
def execute : Opcode → M Unit
  | .nop => pure ()
  | .hlt => raise .halt
  | .movLitReg => do
    let v ← fetch8
    let r ← fetchByteReg
    writeByte r v
  | .movLitRegWide => do
    let v ← fetch16
    let w ← fetchWideReg
    writeWide w v
  | .movRegReg => do
    match ← fetchAnyReg with
    | .byte rs =>
      let rd ← fetchByteReg
      let v ← readByte rs
      writeByte rd v
    | .wide ws =>
      let wd ← fetchWideReg
      let v ← readWide ws
      writeWide wd v
  | .movRegMem => do
    let r ← fetchAnyReg
    let a ← fetch16
    storeFrom r a
  | .movMemReg => do
    let a ← fetch16
    let r ← fetchAnyReg
    loadInto r a
  | .movLitMem => do
    let v ← fetch8
    let a ← fetch16
    memWrite8 a v
  | .movLitMemWide => do
    let v ← fetch16
    let a ← fetch16
    memWrite16 a v
  | .movRegPtrReg => do
    let p ← fetchWideReg
    let a ← readWide p
    let r ← fetchAnyReg
    loadInto r a
  | .movLitOffReg => do
    let base ← fetch16
    let o ← fetchWideReg
    let v ← readWide o
    let r ← fetchAnyReg
    loadInto r (offsetAddress base v)

/-- `Step` of R136, for a running engine. -/
def cycle : M Unit := do
  let op ← fetch8
  execute (decodeOpcode op)

end Sys2Proof.Machine
end

