-- ==== Sys2Proof/Machine/DeviceContract.lean ====
section
/-!
DEFINITION. The device contract the bus consumes (R4, R61 to R63): byte and word access at a device-relative
address, with the bounds check. The bus uses the byte operations only (R63, R72); an obligation says that a bus
byte access is the device's byte access at the translated address.
-/

namespace Sys2Proof.Machine

/-- `DevRead(d, t)` (R62). -/
def devRead8 (d : Nat) (t : Word) : M Byte := fun s =>
  if s.hasByte d t.toNat then .ok (s.slotByte ⟨d, t.toNat⟩) s
  else .error (.fault (.outOfBounds t)) s

/-- `DevWrite(d, t, v)` (R62). -/
def devWrite8 (d : Nat) (t : Word) (v : Byte) : M Unit := fun s =>
  if s.hasByte d t.toNat then .ok () (s.setSlot ⟨d, t.toNat⟩ v)
  else .error (.fault (.outOfBounds t)) s

/-- `get_wide(addr)` by the default policy (R63); the address after `t` is `Inc16`'s (R131, log entry 12). -/
def devReadWide (d : Nat) (t : Word) : M Word := do
  let h ← devRead8 d t
  let t2 ← inc16 t 1
  let l ← devRead8 d t2
  pure (cat h l)

/-- `set_wide(addr, u16)` by the default policy (R63): the high byte at `t`, the low byte at the address after it. -/
def devWriteWide (d : Nat) (t : Word) (v : Word) : M Unit := do
  devWrite8 d t (high v)
  let t2 ← inc16 t 1
  devWrite8 d t2 (low v)

end Sys2Proof.Machine
end

