-- ==== Sys2Proof/Machine/Reset.lean ====
section
/-!
DEFINITION. The reset procedure on any platform (R230 to R232), with the platforms the spec refuses (R44, R107).
-/

namespace Sys2Proof.Machine

/-! ### Devices and their images (R62, R232) -/

/-- The cells of an image whose first byte is at address `k`. -/
def cellsOf : Nat → List Byte → List Host.Cell
  | _, [] => []
  | k, v :: vs => cellCons k v (cellsOf (k + 1) vs)

/-- A device given all its bytes: `devInit(d)` of R232. The buffer of R62 is `deviceOf (preload ++ rest)`; the source
leaves `rest` to the launch, and so does the model. -/
def deviceOf (image : List Byte) : Device := ⟨image.length, cellsOf 0 image⟩

/-- The fixed-size array of R62: 65536 bytes, all 0x00. -/
def fixedArray : Device := ⟨fixedArrayLen, []⟩

/-! ### Reset -/

/-- Reset (R231) over a configuration and devices whose contents are `devInit` (R232). It raises NoMemory over an
empty bus (R230), and refuses what is no configuration (R44, D10, R107) or no device image. -/
def resetOn (cfg : Config) (devices : List Device) : Host.Outcome State Fault Refusal :=
  match busStart cfg.regions, busEnd cfg.regions with
  | some lo, some hi =>
    if regionsOrdered cfg.regions = false then .refused .reversedRegion
    else if devicesBoundOnce devices.length cfg.regions = false then .refused .deviceBinding
    else if cfg.regCodes.wf = false then .refused .ambiguousRegCodes
    else if Memory.wf devices = false then .refused .badDeviceImage
    else .next
      { a := 0, b := 0, c := 0, d := 0, e := 0, f := 0, g := 0, h := 0,
        pc := lo, sp := hi, status := .running, devices := devices, cfg := cfg }
  | _, _ => .fault .noMemory

end Sys2Proof.Machine
end

