-- ==== Sys2Proof/Machine/Run.lean ====
section
/-!
DEFINITION. Free-running execution (R139, R140).
-/

namespace Sys2Proof.Machine

/-- Free-running execution (R139): perform a step while the status is Running, at most `n` times; the result is the
final state, in which the status keeps the cause of the stop. A run that never stops has no bound in the machine
(R140); here it has the one it is given. -/
def run : Nat → State → State
  | 0, s => s
  | n + 1, s =>
    match step s with
    | .next t => run n t
    | .fault _ => s
    | .refused _ => s

end Sys2Proof.Machine
end

