-- ==== Sys2Proof/Safety.lean ====
section
/-!
DEFINITION. The terms the statements use: when a fetch can be made, what an instruction names as its
destination and its store address, and the invariant that every step keeps.
-/

namespace Sys2Proof.Machine

/-! ### When fetches and word accesses can be made -/

/-- The state with PC moved past `k` bytes. -/
def State.advance (s : State) (k : Nat) : State := { s with pc := s.pc + BitVec.ofNat 16 k }

/-- `Inc16(a, k)` raises nothing (R131). -/
def State.canInc (s : State) (a : Word) (k : Nat) : Bool :=
  s.cfg.wrap16 || decide (a.toNat + k ≤ 0xFFFF)

/-- A bus access at `a` reaches a byte (R65 to R67). -/
def State.serves (s : State) (a : Word) : Bool :=
  match s.route a with
  | .ok _ => true
  | .error _ => false

/-- The next `k` bytes of the instruction stream can be fetched (R131 to R133). -/
def State.canFetch (s : State) (k : Nat) : Bool :=
  s.canInc s.pc k && (List.range k).all fun j => s.serves (s.pc + BitVec.ofNat 16 j)

/-- The byte at `x` serves `a` and the byte at `y` serves the address after it: a 16-bit access at `a` is made of
these two (R72, R73). -/
def State.WordAt (s : State) (a : Word) (x y : Slot) : Prop :=
  s.route a = .ok x ∧ s.canInc a 1 = true ∧ s.route (a + 1#16) = .ok y

/-- Why a 16-bit access at `a` fails after its first byte: the increment, or the second byte's route (R72, R73). -/
def State.secondByteFault (s : State) (a : Word) : Option Cause :=
  if s.canInc a 1 then
    match s.route (a + 1#16) with
    | .ok _ => none
    | .error c => some c
  else some (.addressOverflow a)

/-- Why an access of the register's width at `a` fails, its first failing byte first (R72, R73, R135, R204). -/
def State.accessFault (s : State) (r : AnyReg) (a : Word) : Option Cause :=
  match s.route a with
  | .error c => some c
  | .ok _ =>
    match r with
    | .byte _ => none
    | .wide _ => s.secondByteFault a

/-! ### What an instruction names -/

/-- The byte register is a part of the register. -/
def covers (q : AnyReg) (r : ByteReg) : Bool :=
  match q with
  | .byte q => q == r
  | .wide w =>
    match halves w with
    | some (x, y) => x == r || y == r
    | none => false

/-- The register an instruction names as its destination under the code table (R36). -/
def destination (t : RegCodes) : Instr → Option AnyReg
  | .movLitReg _ dst => (t.byteOf dst).map .byte
  | .movLitRegWide _ dst => (t.wideOf dst).map .wide
  | .movRegReg src dst =>
    match t.anyOf src with
    | some (.byte _) => (t.byteOf dst).map .byte
    | some (.wide _) => (t.wideOf dst).map .wide
    | none => none
  | .movMemReg _ dst => t.anyOf dst
  | .movRegPtrReg _ dst => t.anyOf dst
  | .movLitOffReg _ _ dst => t.anyOf dst
  | .nop | .hlt | .movRegMem _ _ | .movLitMem _ _ | .movLitMemWide _ _ => none

/-- The bus addresses an instruction stores to under the code table (R170, R174, R176). -/
def storeAddresses (t : RegCodes) : Instr → List Word
  | .movRegMem src addr =>
    match t.anyOf src with
    | some (.byte _) => [addr]
    | some (.wide _) => [addr, addr + 1#16]
    | none => []
  | .movLitMem _ addr => [addr]
  | .movLitMemWide _ addr => [addr, addr + 1#16]
  | .nop | .hlt | .movLitReg _ _ | .movLitRegWide _ _ | .movRegReg _ _ | .movMemReg _ _
  | .movRegPtrReg _ _ | .movLitOffReg _ _ _ => []

/-- How many bytes an instruction's first operand takes; 0 if it has none (R101, R103). -/
def firstOperandBytes : Instr → Nat
  | .nop | .hlt => 0
  | .movLitReg _ _ | .movRegReg _ _ | .movRegMem _ _ | .movLitMem _ _ | .movRegPtrReg _ _ => 1
  | .movLitRegWide _ _ | .movMemReg _ _ | .movLitMemWide _ _ | .movLitOffReg _ _ _ => 2

/-! ### The invariant -/

/-- The cause is one a step can record: NoMemory is a reset condition (R205) and no device of this spec raises
Device(other) (R206). -/
def Cause.ofStep : Cause → Bool
  | .invalidRegister _ | .outOfBounds _ | .addressOverflow _ => true
  | .noMemory | .device _ => false

/-- The status is one a run can show (R40, R205, R206). -/
def Status.legal : Status → Bool
  | .running | .halted => true
  | .faulted c => c.ofStep

/-- What reset establishes and every step keeps: a legal configuration (R44, R107), canonical memory inside each
device's length (R46, R61), and a legal status. -/
structure State.Inv (s : State) : Prop where
  config : s.cfg.wf s.devices.length = true
  memory : Memory.wf s.devices = true
  status : s.status.legal = true

end Sys2Proof.Machine
end

