-- ==== Sys2Proof/Certificates/Slice0/Obligations.lean ====
section
/-!
DEFINITION. The statements about the model, each after the rules of spec/ it formalises. Addresses of stores and
loads are computed with the functions the meanings use: `State.route` for the byte a bus access reaches,
`State.getWide` and `offsetAddress` for a pointer or an offset.
-/

open Sys2Proof Sys2Proof.Machine

/-! ### Words, registers -/

/-- R10: `high`, `low` and `cat` are the arithmetic the rule writes, and a word is its two bytes rejoined. -/
def Obligations.WordSplitsIntoBytesAndRejoins : Prop :=
  (∀ v : Word, (high v).toNat = v.toNat / 256 % 256 ∧ (low v).toNat = v.toNat % 256 ∧
    cat (high v) (low v) = v) ∧
  ∀ h l : Byte, (cat h l).toNat = h.toNat * 256 + l.toNat

/-- R32, R33: the composed wide registers are their halves, high byte first; PC and SP are cells of their own; every
wide register reads back what was written to it. -/
def Obligations.WideAccessFollowsTheHalves : Prop :=
  ∀ (s : State) (v : Word),
    (s.getWide .ab = cat (s.getByte .a) (s.getByte .b) ∧
      s.setWide .ab v = (s.setByte .a (high v)).setByte .b (low v)) ∧
    (s.getWide .cd = cat (s.getByte .c) (s.getByte .d) ∧
      s.setWide .cd v = (s.setByte .c (high v)).setByte .d (low v)) ∧
    (s.getWide .ef = cat (s.getByte .e) (s.getByte .f) ∧
      s.setWide .ef v = (s.setByte .e (high v)).setByte .f (low v)) ∧
    (s.getWide .gh = cat (s.getByte .g) (s.getByte .h) ∧
      s.setWide .gh v = (s.setByte .g (high v)).setByte .h (low v)) ∧
    (s.getWide .pc = s.pc ∧ s.setWide .pc v = { s with pc := v }) ∧
    (s.getWide .sp = s.sp ∧ s.setWide .sp v = { s with sp := v }) ∧
    ∀ w, (s.setWide w v).getWide w = v

/-- R34: a byte write shows in the wide register it is half of and in no other; a wide write shows in its two halves
and in no other register; PC and SP share no bit with anything. -/
def Obligations.WideRegistersShareOnlyTheirHalves : Prop :=
  ∀ (s : State) (r : ByteReg) (w : WideReg) (b : Byte) (v : Word),
    (∀ q, (s.setByte r b).getByte q = if q = r then b else s.getByte q) ∧
    (∀ u, (s.setByte r b).getWide u =
      match halves u with
      | some (hi, lo) => cat (if hi = r then b else s.getByte hi) (if lo = r then b else s.getByte lo)
      | none => s.getWide u) ∧
    (∀ q, (s.setWide w v).getByte q =
      match halves w with
      | some (hi, lo) => if q = hi then high v else if q = lo then low v else s.getByte q
      | none => s.getByte q) ∧
    ∀ u, (s.setWide w v).getWide u = if u = w then v else s.getWide u

/-! ### The bus -/

/-- R66: where no region contains the address, between regions, below busStart or above busEnd, a read and a write
fail with the untranslated address and change nothing. -/
def Obligations.BusMissCarriesTheBusAddress : Prop :=
  ∀ (s : State) (a : Word) (v : Byte),
    ((∀ r ∈ s.cfg.regions, ¬ (r.start ≤ a ∧ a ≤ r.stop)) ∨
      (∃ lo, busStart s.cfg.regions = some lo ∧ a < lo) ∨
      (∃ hi, busEnd s.cfg.regions = some hi ∧ hi < a)) →
    memRead8 a s = .error (.fault (.outOfBounds a)) s ∧
    memWrite8 a v s = .error (.fault (.outOfBounds a)) s

/-- R67, R68: over a bus to which a region was added last, an address in that region is served by its device at the
translated address and by nothing else, an address outside it by the earlier regions as before, and a write through
the new region leaves every other device alone. The failure past the device's length is R62 and R69; that a region whose
device is not attached fails as over an empty device is the model's choice (log entry 15). -/
def Obligations.LaterRegionShadowsEarlierOnes : Prop :=
  ∀ (s : State) (c : Config) (start stop : Word) (d : Nat), s.cfg = addRegion c start stop d →
    (∀ a, start ≤ a ∧ a ≤ stop → s.route a =
      if s.hasByte d (a - start).toNat then .ok ⟨d, (a - start).toNat⟩
      else .error (.outOfBounds (a - start))) ∧
    (∀ a, ¬ (start ≤ a ∧ a ≤ stop) → s.route a = ({ s with cfg := c } : State).route a) ∧
    ∀ a v t x, start ≤ a ∧ a ≤ stop → memWrite8 a v s = .ok () t → x.device ≠ d →
      t.slotByte x = s.slotByte x

/-- R61, R62, R67: a bus access inside a device's length reads or writes that byte; one at or beyond the length fails. That
the failure carries the device-relative address is R69, which the spec derives, and that a device is a plain byte store is
D9 (log entry 12). -/
def Obligations.DeviceRejectsAccessesAtOrBeyondItsLength : Prop :=
  ∀ (s : State) (a : Word) (r : Region) (dev : Device) (v : Byte),
    lookup s.cfg.regions a = some r → s.devices[r.device]? = some dev →
    ((a - r.start).toNat < dev.len →
      memRead8 a s = .ok (cellRead dev.cells (a - r.start).toNat) s ∧
      memWrite8 a v s = .ok () (s.setSlot ⟨r.device, (a - r.start).toNat⟩ v)) ∧
    (dev.len ≤ (a - r.start).toNat →
      memRead8 a s = .error (.fault (.outOfBounds (a - r.start))) s ∧
      memWrite8 a v s = .error (.fault (.outOfBounds (a - r.start))) s)

/-- R65 to R67: a bus byte access is the byte access of the device that the first region in lookup order containing the
address is bound to, at the address minus the region's start, which lies in 0 to end - start; with no such region it
fails with the bus address. -/
def Obligations.BusAccessIsTheDeviceAccessAtTheTranslatedAddress : Prop :=
  ∀ (s : State) (a : Word) (v : Byte),
    (∀ r, lookup s.cfg.regions a = some r →
      memRead8 a s = devRead8 r.device (a - r.start) s ∧
      memWrite8 a v s = devWrite8 r.device (a - r.start) v s ∧
      (a - r.start).toNat = a.toNat - r.start.toNat ∧ r.start.toNat ≤ a.toNat ∧
      (a - r.start).toNat ≤ r.stop.toNat - r.start.toNat) ∧
    (lookup s.cfg.regions a = none →
      memRead8 a s = .error (.fault (.outOfBounds a)) s ∧
      memWrite8 a v s = .error (.fault (.outOfBounds a)) s)

/-- R63: a word written by a device's word operation is read back by it, its high byte at the address and its low byte at
the next. -/
def Obligations.DeviceWordReadsBackHighByteFirst : Prop :=
  ∀ (s t : State) (d : Nat) (a v : Word), Memory.wf s.devices = true → devWriteWide d a v s = .ok () t →
    devReadWide d a t = .ok v t ∧ devRead8 d a t = .ok (high v) t ∧ devRead8 d (a + 1#16) t = .ok (low v) t

/-- R64, R80: a byte written is read back at its address, and every other byte reads as before. -/
def Obligations.WrittenByteReadsBackAndOthersStay : Prop :=
  ∀ (s t : State) (a : Word) (v : Byte), Memory.wf s.devices = true → memWrite8 a v s = .ok () t →
    memRead8 a t = .ok v t ∧
    ∀ b x, s.route b = .ok x → s.route a ≠ .ok x → memRead8 b t = .ok (s.slotByte x) t

/-- R72 to R74: a word written is read back as a word, its high byte at the address and its low byte at the next. -/
def Obligations.WrittenWordReadsBackHighByteFirst : Prop :=
  ∀ (s t : State) (a v : Word), s.Inv → memWrite16 a v s = .ok () t →
    memRead16 a t = .ok v t ∧ memRead8 a t = .ok (high v) t ∧ memRead8 (a + 1#16) t = .ok (low v) t

/-- R73, R131: when only the second byte of a word write fails, the first stays written. -/
def Obligations.FailedWordWriteKeepsItsFirstByte : Prop :=
  ∀ (s : State) (a v : Word) (x : Slot) (c : Cause), s.route a = .ok x →
    ((s.cfg.wrap16 = false ∧ a = 0xFFFF ∧ c = .addressOverflow a) ∨
      ((s.cfg.wrap16 = true ∨ a ≠ 0xFFFF) ∧ s.route (a + 1#16) = .error c)) →
    memWrite16 a v s = .error (.fault c) (s.setSlot x (high v)) ∧
    memRead16 a s = .error (.fault c) s

/-! ### Fetching -/

/-- R131, R132 (D5, D6): a byte fetch moves PC by one before its bus read, unless PC is 0xFFFF and does not wrap. -/
def Obligations.ByteFetchMovesPcBeforeItReads : Prop :=
  ∀ s : State,
    (s.pc = 0xFFFF → s.cfg.wrap16 = false → fetch8 s = .error (.fault (.addressOverflow 0xFFFF)) s) ∧
    ((s.pc ≠ 0xFFFF ∨ s.cfg.wrap16 = true) →
      (∀ x, s.route s.pc = .ok x → fetch8 s = .ok (s.slotByte x) { s with pc := s.pc + 1#16 }) ∧
      ∀ c, s.route s.pc = .error c → fetch8 s = .error (.fault c) { s with pc := s.pc + 1#16 })

/-- R131, R133 (D5, D6): a word fetch moves PC by two, also when its first or its second byte fails. -/
def Obligations.WordFetchMovesPcByTwoEvenWhenItFails : Prop :=
  ∀ s : State,
    (0xFFFE ≤ s.pc.toNat → s.cfg.wrap16 = false →
      fetch16 s = .error (.fault (.addressOverflow s.pc)) s) ∧
    ((s.pc.toNat < 0xFFFE ∨ s.cfg.wrap16 = true) →
      (∀ x y, s.route s.pc = .ok x → s.route (s.pc + 1#16) = .ok y →
        fetch16 s = .ok (cat (s.slotByte x) (s.slotByte y)) { s with pc := s.pc + 2#16 }) ∧
      (∀ c, s.route s.pc = .error c → fetch16 s = .error (.fault c) { s with pc := s.pc + 2#16 }) ∧
      ∀ x c, s.route s.pc = .ok x → s.route (s.pc + 1#16) = .error c →
        fetch16 s = .error (.fault c) { s with pc := s.pc + 2#16 })

/-- R83: a byte just written at PC is what the next byte fetch gives. -/
def Obligations.StoredByteIsWhatTheNextFetchGives : Prop :=
  ∀ (s t : State) (v : Byte), Memory.wf s.devices = true → memWrite8 s.pc v s = .ok () t →
    (s.pc ≠ 0xFFFF ∨ s.cfg.wrap16 = true) → fetch8 t = .ok v { t with pc := t.pc + 1#16 }

/-! ### Register codes -/

/-- R108 (D1, D2): the default table, code by code. The model's default (log entry 3). -/
def Obligations.DefaultRegisterCodesAreTheTable : Prop :=
  defaultRegCodes.byteOf 0x01 = some .a ∧ defaultRegCodes.byteOf 0x02 = some .b ∧
  defaultRegCodes.byteOf 0x03 = some .c ∧ defaultRegCodes.byteOf 0x04 = some .d ∧
  defaultRegCodes.byteOf 0x05 = some .e ∧ defaultRegCodes.byteOf 0x06 = some .f ∧
  defaultRegCodes.byteOf 0x07 = some .g ∧ defaultRegCodes.byteOf 0x08 = some .h ∧
  defaultRegCodes.wideOf 0xA0 = some .ab ∧ defaultRegCodes.wideOf 0xA1 = some .cd ∧
  defaultRegCodes.wideOf 0xA2 = some .ef ∧ defaultRegCodes.wideOf 0xA3 = some .gh ∧
  defaultRegCodes.wideOf 0xF0 = some .pc ∧ defaultRegCodes.wideOf 0xF1 = some .sp ∧
  ∀ c : RegCode, defaultRegCodes.anyOf c = none ↔
    c.toNat = 0 ∨ (9 ≤ c.toNat ∧ c.toNat ≤ 0x9F) ∨ (0xA4 ≤ c.toNat ∧ c.toNat ≤ 0xEF) ∨ 0xF2 ≤ c.toNat

/-- R107: in a table that R107 allows, a code names at most one register, of one width, and two codes never name one
register. -/
def Obligations.RegisterCodesAreUnambiguous : Prop :=
  ∀ (t : RegCodes) (c c' : RegCode), t.wf = true →
    (∀ r, t.byteOf c = some r → t.wideOf c = none ∧ t.anyOf c = some (.byte r)) ∧
    (∀ w, t.wideOf c = some w → t.byteOf c = none ∧ t.anyOf c = some (.wide w)) ∧
    (∀ q, t.anyOf c = some q → t.anyOf c' = some q → c = c')

/-! ### Encoding -/

/-- R102 to R104, R110: decoding an encoded instruction gives it back, whatever its operands and whatever follows it. -/
def Obligations.DecodeOfEncodeGivesTheInstructionBack : Prop :=
  ∀ (i : Instr) (rest : List Byte), decode (encode i ++ rest) = .ok (i, rest)

/-- R102 to R104, R110: bytes whose opcode is one of the eleven are the encoding of what they decode to, followed by the
bytes the decoder leaves. -/
def Obligations.EncodeOfDecodeGivesTheBytesBack : Prop :=
  ∀ (bs rest : List Byte) (i : Instr), decode bs = .ok (i, rest) →
    (∃ op tail, bs = op :: tail ∧ assignedOpcode op = true) → encode i ++ rest = bs

/-- R154: the unassigned opcodes 0x01 to 0x0F and 0x19 to 0xFE decode as NOP, take no operand byte, and a step over one
leaves everything but PC as it was. -/
def Obligations.UnassignedOpcodeExecutesAsNop : Prop :=
  ∀ op : Byte, ((0x01 ≤ op.toNat ∧ op.toNat ≤ 0x0F) ∨ (0x19 ≤ op.toNat ∧ op.toNat ≤ 0xFE)) →
    (∀ rest, decode (op :: rest) = .ok (.nop, rest)) ∧
    ∀ s t : State, s.status = .running → fetch8 s = .ok op t →
      t = { s with pc := s.pc + 1#16 } ∧ step s = exec .nop t ∧ step s = .next t

/-- R103, R110: words written out byte by byte from the formats, one per instruction. A check on fixed values. -/
def Obligations.HandWrittenWordsDecode : Prop :=
  decode [0x00, 0x55] = .ok (.nop, [0x55]) ∧
  decode [0xFF] = .ok (.hlt, []) ∧
  decode [0x10, 0xAB, 0x03] = .ok (.movLitReg 0xAB 0x03, []) ∧
  decode [0x11, 0x12, 0x34, 0xA0] = .ok (.movLitRegWide 0x1234 0xA0, []) ∧
  decode [0x12, 0xA0, 0xA3] = .ok (.movRegReg 0xA0 0xA3, []) ∧
  decode [0x13, 0xA2, 0x01, 0x02] = .ok (.movRegMem 0xA2 0x0102, []) ∧
  decode [0x14, 0x01, 0x02, 0xA1] = .ok (.movMemReg 0x0102 0xA1, []) ∧
  decode [0x15, 0x7F, 0x02, 0x03] = .ok (.movLitMem 0x7F 0x0203, []) ∧
  decode [0x16, 0xBE, 0xEF, 0x02, 0x03] = .ok (.movLitMemWide 0xBEEF 0x0203, []) ∧
  decode [0x17, 0xA1, 0xA2, 0x99] = .ok (.movRegPtrReg 0xA1 0xA2, [0x99]) ∧
  decode [0x18, 0x02, 0x01, 0xA3, 0x08] = .ok (.movLitOffReg 0x0201 0xA3 0x08, [])

/-! ### The step -/

/-- R130, R136: where the bytes at PC decode to an instruction and the opcode byte can be fetched, a step of a running
engine is that instruction's meaning with PC moved past the opcode byte. -/
def Obligations.StepRunsTheDecodedInstruction : Prop :=
  ∀ (s : State) (i : Instr) (rest : List Byte), s.status = .running → s.canFetch 1 = true →
    decode [s.peek s.pc, s.peek (s.pc + 1#16), s.peek (s.pc + 2#16), s.peek (s.pc + 3#16),
      s.peek (s.pc + 4#16)] = .ok (i, rest) →
    step s = exec i (s.advance 1)

/-- R136, R105, and the pseudocode of R150 to R180: a step of a running engine is the spec's own cycle, in which the
opcode alone selects the code and every operand is the value its fetch reads from the bus. -/
def Obligations.StepIsTheCycleOfTheSpec : Prop :=
  ∀ s : State, s.status = .running → step s = conclude (cycle s)

/-- R137, R205: a step of a running engine has exactly one outcome, a next state that runs on, has halted, or has faulted
with one of three conditions; NoMemory is never among them. Choices it rests on: AddressOverflow is a condition (R131,
R201, D5, log entry 4), Device(other) is never raised (R206, D9, log entry 12), and a stop is a next state with the status
Halted or Faulted (R200, D7, log entry 16). -/
def Obligations.RunningEngineAlwaysHasANextState : Prop :=
  ∀ s : State, s.status = .running → ∃ t, step s = .next t ∧
    (t.status = .running ∨ t.status = .halted ∨
      ∃ c, t.status = .faulted c ∧
        ((∃ b, c = .invalidRegister b) ∨ (∃ a, c = .outOfBounds a) ∨ ∃ a, c = .addressOverflow a))

/-- R138 (D7, K10): a stopped engine has no step. -/
def Obligations.StoppedEngineHasNoStep : Prop :=
  ∀ s : State, s.status ≠ .running → ∀ t, step s ≠ .next t

/-- R152, R200, R201 (D7): a step halts exactly when it fetches the byte 0xFF, and then only PC and the status change. -/
def Obligations.OnlyHltHalts : Prop :=
  ∀ s t : State, s.status = .running → step s = .next t →
    ((t.status = .halted ↔ s.canFetch 1 = true ∧ s.peek s.pc = 0xFF) ∧
      (t.status = .halted → t = { s with pc := s.pc + 1#16, status := .halted }))

/-- R203 (b), (c): a step that faults has changed no register but PC, and no byte of memory but the first byte of a word
write whose second byte failed. -/
def Obligations.FaultingStepLeavesRegistersAndAllButOneByte : Prop :=
  ∀ (s t : State) (c : Cause), s.status = .running → step s = .next t → t.status = .faulted c →
    (∀ r, t.getByte r = s.getByte r) ∧ t.sp = s.sp ∧
    ∀ x, t.slotByte x ≠ s.slotByte x →
      ∃ a, storeAddresses s.cfg.regCodes ((s.advance 1).instrAt (s.peek s.pc)) = [a, a + 1#16] ∧
        s.route a = .ok x ∧ s.secondByteFault a = some c

/-- R43, R44, R47: no step changes the configuration or a device's length. -/
def Obligations.ConfigurationNeverChanges : Prop :=
  ∀ s t : State, step s = .next t →
    t.cfg = s.cfg ∧ t.devices.map Device.len = s.devices.map Device.len

/-- R39: no instruction changes SP except by naming it as its wide destination. -/
def Obligations.SpChangesOnlyAsExplicitDestination : Prop :=
  ∀ (i : Instr) (s t : State), exec i s = .next t → t.sp ≠ s.sp →
    destination s.cfg.regCodes i = some (.wide .sp)

/-- The model's invariant holds at reset: log entry 1 for the platform, R44, R46, R48, R107. -/
def Obligations.ResetStateMeetsTheInvariant : Prop := State.reset.Inv

/-- R44, R46, R107, R205, R206: every step keeps the configuration legal, memory in canonical form inside each device's
length, and the status one a run can show. -/
def Obligations.EveryStepKeepsTheInvariant : Prop :=
  ∀ s t : State, s.Inv → step s = .next t → t.Inv

/-- R138 to R140: free-running execution goes step by step, and once the engine has stopped, running on changes
nothing. -/
def Obligations.RunGoesStepByStepAndStaysAtItsStop : Prop :=
  (∀ (n : Nat) (s t : State), s.status = .running → step s = .next t → run (n + 1) s = run n t) ∧
  ∀ (n m : Nat) (s : State), (run n s).status ≠ .running → run (n + m) s = run n s

/-! ### What each instruction does when it completes -/

/-- R150, R152: NOP changes nothing; HLT changes the status to Halted and nothing else. -/
def Obligations.NopAndHltComplete : Prop :=
  ∀ s : State, exec .nop s = .next s ∧ exec .hlt s = .next { s with status := .halted }

/-- R160: MOV_LIT_REG writes the literal to the byte register, PC past both operands. -/
def Obligations.MovLitRegWritesTheLiteral : Prop :=
  ∀ (s : State) (imm : Byte) (dst : RegCode) (r : ByteReg), s.canFetch 2 = true →
    s.cfg.regCodes.byteOf dst = some r →
    exec (.movLitReg imm dst) s = .next ((s.advance 2).setByte r imm)

/-- R162: MOV_LIT_REG_WIDE writes the literal to the wide register; a destination of PC is a jump (D2). -/
def Obligations.MovLitRegWideWritesTheLiteral : Prop :=
  ∀ (s : State) (imm : Word) (dst : RegCode) (w : WideReg), s.canFetch 3 = true →
    s.cfg.regCodes.wideOf dst = some w →
    exec (.movLitRegWide imm dst) s = .next ((s.advance 3).setWide w imm)

/-- R164: MOV_REG_REG copies at the source's width; the source is read after both fetches (D8). -/
def Obligations.MovRegRegCopiesAtTheSourcesWidth : Prop :=
  ∀ (s : State) (src dst : RegCode), s.canFetch 2 = true →
    (∀ r q, s.cfg.regCodes.anyOf src = some (.byte r) → s.cfg.regCodes.byteOf dst = some q →
      exec (.movRegReg src dst) s = .next ((s.advance 2).setByte q (s.getByte r))) ∧
    ∀ w u, s.cfg.regCodes.anyOf src = some (.wide w) → s.cfg.regCodes.wideOf dst = some u →
      exec (.movRegReg src dst) s = .next ((s.advance 2).setWide u ((s.advance 2).getWide w))

/-- R170: MOV_REG_MEM stores a byte, or a word high byte first; the source is read after both fetches (D8). -/
def Obligations.MovRegMemStoresAtTheSourcesWidth : Prop :=
  ∀ (s : State) (src : RegCode) (addr : Word), s.canFetch 3 = true →
    (∀ r x, s.cfg.regCodes.anyOf src = some (.byte r) → s.route addr = .ok x →
      exec (.movRegMem src addr) s = .next ((s.advance 3).setSlot x (s.getByte r))) ∧
    ∀ w x y, s.cfg.regCodes.anyOf src = some (.wide w) → s.WordAt addr x y →
      exec (.movRegMem src addr) s = .next (((s.advance 3).setSlot x
        (high ((s.advance 3).getWide w))).setSlot y (low ((s.advance 3).getWide w)))

/-- R172: MOV_MEM_REG loads a byte, or a word high byte first, at the destination's width. -/
def Obligations.MovMemRegLoadsAtTheDestinationsWidth : Prop :=
  ∀ (s : State) (addr : Word) (dst : RegCode), s.canFetch 3 = true →
    (∀ r x, s.cfg.regCodes.anyOf dst = some (.byte r) → s.route addr = .ok x →
      exec (.movMemReg addr dst) s = .next ((s.advance 3).setByte r (s.slotByte x))) ∧
    ∀ w x y, s.cfg.regCodes.anyOf dst = some (.wide w) → s.WordAt addr x y →
      exec (.movMemReg addr dst) s =
        .next ((s.advance 3).setWide w (cat (s.slotByte x) (s.slotByte y)))

/-- R174, R176: MOV_LIT_MEM stores its byte and MOV_LIT_MEM_WIDE its word, high byte first. -/
def Obligations.LiteralStoresWriteTheirLiteral : Prop :=
  (∀ (s : State) (imm : Byte) (addr : Word) (x : Slot), s.canFetch 3 = true → s.route addr = .ok x →
    exec (.movLitMem imm addr) s = .next ((s.advance 3).setSlot x imm)) ∧
  ∀ (s : State) (imm addr : Word) (x y : Slot), s.canFetch 4 = true → s.WordAt addr x y →
    exec (.movLitMemWide imm addr) s =
      .next (((s.advance 4).setSlot x (high imm)).setSlot y (low imm))

/-- R178: MOV_REG_PTR_REG loads from the address its pointer held before the destination was fetched. -/
def Obligations.MovRegPtrRegLoadsThroughThePointer : Prop :=
  ∀ (s : State) (ptr dst : RegCode) (p : WideReg), s.canFetch 2 = true →
    s.cfg.regCodes.wideOf ptr = some p →
    (∀ r x, s.cfg.regCodes.anyOf dst = some (.byte r) → s.route ((s.advance 1).getWide p) = .ok x →
      exec (.movRegPtrReg ptr dst) s = .next ((s.advance 2).setByte r (s.slotByte x))) ∧
    ∀ w x y, s.cfg.regCodes.anyOf dst = some (.wide w) → s.WordAt ((s.advance 1).getWide p) x y →
      exec (.movRegPtrReg ptr dst) s =
        .next ((s.advance 2).setWide w (cat (s.slotByte x) (s.slotByte y)))

/-- R180: MOV_LIT_OFF_REG loads from base +w W[offset], the sum wrapping, the offset read before the destination is
fetched. -/
def Obligations.MovLitOffRegLoadsFromBasePlusOffset : Prop :=
  ∀ (s : State) (base : Word) (off dst : RegCode) (o : WideReg), s.canFetch 4 = true →
    s.cfg.regCodes.wideOf off = some o →
    (∀ r x, s.cfg.regCodes.anyOf dst = some (.byte r) →
      s.route (offsetAddress base ((s.advance 3).getWide o)) = .ok x →
      exec (.movLitOffReg base off dst) s = .next ((s.advance 4).setByte r (s.slotByte x))) ∧
    ∀ w x y, s.cfg.regCodes.anyOf dst = some (.wide w) →
      s.WordAt (offsetAddress base ((s.advance 3).getWide o)) x y →
      exec (.movLitOffReg base off dst) s =
        .next ((s.advance 4).setWide w (cat (s.slotByte x) (s.slotByte y)))

/-- R180, R15: the sum of base and offset is taken modulo 0x10000. -/
def Obligations.OffsetSumWraps : Prop :=
  ∀ base offset : Word, (offsetAddress base offset).toNat = (base.toNat + offset.toNat) % 0x10000

/-- R170, R172, R74: a wide register stored to memory and then loaded from there into a wide register arrives whole. -/
def Obligations.StoredWordLoadsBackIntoAnyWideRegister : Prop :=
  ∀ (s t : State) (src dst : RegCode) (addr : Word) (w u : WideReg), s.Inv → s.canFetch 3 = true →
    s.cfg.regCodes.anyOf src = some (.wide w) → s.cfg.regCodes.anyOf dst = some (.wide u) →
    exec (.movRegMem src addr) s = .next t → t.status = .running → t.canFetch 3 = true →
    exec (.movMemReg addr dst) t = .next ((t.advance 3).setWide u ((s.advance 3).getWide w))

/-! ### Where instructions stop -/

/-- R109, R134, R160 to R164: a register move whose code names no register of the kind its field asks for stops with
InvalidRegister, PC past that code and nothing else changed. -/
def Obligations.RegisterMovesStopOnAnInvalidCode : Prop :=
  ∀ (s : State) (c src : RegCode),
    (∀ imm, s.canFetch 2 = true → s.cfg.regCodes.byteOf c = none →
      exec (.movLitReg imm c) s = .next ((s.advance 2).stopWith (.fault (.invalidRegister c)))) ∧
    (∀ imm, s.canFetch 3 = true → s.cfg.regCodes.wideOf c = none →
      exec (.movLitRegWide imm c) s = .next ((s.advance 3).stopWith (.fault (.invalidRegister c)))) ∧
    (∀ dst, s.canFetch 1 = true → s.cfg.regCodes.anyOf c = none →
      exec (.movRegReg c dst) s = .next ((s.advance 1).stopWith (.fault (.invalidRegister c)))) ∧
    (∀ r, s.canFetch 2 = true → s.cfg.regCodes.anyOf src = some (.byte r) →
      s.cfg.regCodes.byteOf c = none →
      exec (.movRegReg src c) s = .next ((s.advance 2).stopWith (.fault (.invalidRegister c)))) ∧
    ∀ w, s.canFetch 2 = true → s.cfg.regCodes.anyOf src = some (.wide w) →
      s.cfg.regCodes.wideOf c = none →
      exec (.movRegReg src c) s = .next ((s.advance 2).stopWith (.fault (.invalidRegister c)))

/-- R109, R134, R170 to R180, R204: a memory move whose code names no register of the kind its field asks for stops with
InvalidRegister before any data access, PC past that code and nothing else changed. -/
def Obligations.MemoryMovesStopOnAnInvalidCode : Prop :=
  ∀ (s : State) (c other : RegCode) (a : Word) (w : WideReg),
    (s.canFetch 1 = true → s.cfg.regCodes.anyOf c = none →
      exec (.movRegMem c a) s = .next ((s.advance 1).stopWith (.fault (.invalidRegister c)))) ∧
    (s.canFetch 3 = true → s.cfg.regCodes.anyOf c = none →
      exec (.movMemReg a c) s = .next ((s.advance 3).stopWith (.fault (.invalidRegister c)))) ∧
    (s.canFetch 1 = true → s.cfg.regCodes.wideOf c = none →
      exec (.movRegPtrReg c other) s = .next ((s.advance 1).stopWith (.fault (.invalidRegister c)))) ∧
    (s.canFetch 2 = true → s.cfg.regCodes.wideOf other = some w → s.cfg.regCodes.anyOf c = none →
      exec (.movRegPtrReg other c) s = .next ((s.advance 2).stopWith (.fault (.invalidRegister c)))) ∧
    (s.canFetch 3 = true → s.cfg.regCodes.wideOf c = none →
      exec (.movLitOffReg a c other) s = .next ((s.advance 3).stopWith (.fault (.invalidRegister c)))) ∧
    (s.canFetch 4 = true → s.cfg.regCodes.wideOf other = some w → s.cfg.regCodes.anyOf c = none →
      exec (.movLitOffReg a other c) s = .next ((s.advance 4).stopWith (.fault (.invalidRegister c))))

/-- R105, R131 to R133, R204: an instruction whose first operand cannot be fetched stops there; PC has moved past the
operand unless the move itself overflowed. -/
def Obligations.FailedOperandFetchStopsTheInstruction : Prop :=
  ∀ (i : Instr) (s : State), firstOperandBytes i ≠ 0 →
    (s.canInc s.pc (firstOperandBytes i) = false →
      exec i s = .next (s.stopWith (.fault (.addressOverflow s.pc)))) ∧
    (∀ c, s.canInc s.pc (firstOperandBytes i) = true → s.route s.pc = .error c →
      exec i s = .next ((s.advance (firstOperandBytes i)).stopWith (.fault c))) ∧
    ∀ c, firstOperandBytes i = 2 → s.canInc s.pc 2 = true → s.serves s.pc = true →
      s.route (s.pc + 1#16) = .error c →
      exec i s = .next ((s.advance 2).stopWith (.fault c))

/-- R172, R178, R180: a load whose read fails stops with that failure, the destination not written. -/
def Obligations.FailedLoadLeavesItsDestination : Prop :=
  ∀ (s : State) (dst : RegCode) (q : AnyReg) (c : Cause), s.cfg.regCodes.anyOf dst = some q →
    (∀ addr, s.canFetch 3 = true → s.accessFault q addr = some c →
      exec (.movMemReg addr dst) s = .next ((s.advance 3).stopWith (.fault c))) ∧
    (∀ ptr p, s.canFetch 2 = true → s.cfg.regCodes.wideOf ptr = some p →
      s.accessFault q ((s.advance 1).getWide p) = some c →
      exec (.movRegPtrReg ptr dst) s = .next ((s.advance 2).stopWith (.fault c))) ∧
    ∀ base off o, s.canFetch 4 = true → s.cfg.regCodes.wideOf off = some o →
      s.accessFault q (offsetAddress base ((s.advance 3).getWide o)) = some c →
      exec (.movLitOffReg base off dst) s = .next ((s.advance 4).stopWith (.fault c))

/-- R73, R170, R174, R176: a store whose first byte fails stores nothing and stops; a word store whose second byte fails
keeps its first byte and stops. -/
def Obligations.FailedStoreKeepsOnlyAWrittenFirstByte : Prop :=
  ∀ (s : State) (addr : Word) (c : Cause),
    (s.route addr = .error c →
      (∀ src q, s.canFetch 3 = true → s.cfg.regCodes.anyOf src = some q →
        exec (.movRegMem src addr) s = .next ((s.advance 3).stopWith (.fault c))) ∧
      (∀ imm, s.canFetch 3 = true →
        exec (.movLitMem imm addr) s = .next ((s.advance 3).stopWith (.fault c))) ∧
      ∀ imm, s.canFetch 4 = true →
        exec (.movLitMemWide imm addr) s = .next ((s.advance 4).stopWith (.fault c))) ∧
    ∀ x, s.route addr = .ok x → s.secondByteFault addr = some c →
      (∀ src w, s.canFetch 3 = true → s.cfg.regCodes.anyOf src = some (.wide w) →
        exec (.movRegMem src addr) s = .next (((s.advance 3).setSlot x
          (high ((s.advance 3).getWide w))).stopWith (.fault c))) ∧
      ∀ imm, s.canFetch 4 = true →
        exec (.movLitMemWide imm addr) s =
          .next (((s.advance 4).setSlot x (high imm)).stopWith (.fault c))

/-! ### Frames -/

/-- R36, R160 to R164: MOV_LIT_REG, MOV_LIT_REG_WIDE and MOV_REG_REG change no register but PC and their destination, no
byte of memory, and nothing of the configuration; the status stays unless they stop. -/
def Obligations.RegisterMovesChangeOnlyPcAndDestination : Prop :=
  ∀ (i : Instr) (s t : State),
    ((∃ imm dst, i = .movLitReg imm dst) ∨ (∃ imm dst, i = .movLitRegWide imm dst) ∨
      ∃ src dst, i = .movRegReg src dst) →
    exec i s = .next t →
    (∀ r, (∀ q, destination s.cfg.regCodes i = some q → covers q r = false) →
      t.getByte r = s.getByte r) ∧
    (destination s.cfg.regCodes i ≠ some (.wide .sp) → t.sp = s.sp) ∧
    (t.status = s.status ∨ ∃ c, t.status = .faulted c) ∧
    (∀ x, t.slotByte x = s.slotByte x) ∧ (∀ a, t.route a = s.route a) ∧ t.cfg = s.cfg

/-- R36, R172, R178, R180: MOV_MEM_REG, MOV_REG_PTR_REG and MOV_LIT_OFF_REG change no register but PC and their
destination (the pointer or offset register is no destination), no byte of memory, and nothing of the configuration; the
status stays unless they stop. -/
def Obligations.LoadsChangeOnlyPcAndDestination : Prop :=
  ∀ (i : Instr) (s t : State),
    ((∃ addr dst, i = .movMemReg addr dst) ∨ (∃ ptr dst, i = .movRegPtrReg ptr dst) ∨
      ∃ base off dst, i = .movLitOffReg base off dst) →
    exec i s = .next t →
    (∀ r, (∀ q, destination s.cfg.regCodes i = some q → covers q r = false) →
      t.getByte r = s.getByte r) ∧
    (destination s.cfg.regCodes i ≠ some (.wide .sp) → t.sp = s.sp) ∧
    (t.status = s.status ∨ ∃ c, t.status = .faulted c) ∧
    (∀ x, t.slotByte x = s.slotByte x) ∧ (∀ a, t.route a = s.route a) ∧ t.cfg = s.cfg

/-- R36, R170, R174, R176: MOV_REG_MEM, MOV_LIT_MEM and MOV_LIT_MEM_WIDE change no register but PC, no byte of memory but
those their store addresses reach, and nothing of the configuration; the status stays unless they stop. -/
def Obligations.StoresChangeOnlyPcAndTheStoredBytes : Prop :=
  ∀ (i : Instr) (s t : State),
    ((∃ src addr, i = .movRegMem src addr) ∨ (∃ imm addr, i = .movLitMem imm addr) ∨
      ∃ imm addr, i = .movLitMemWide imm addr) →
    exec i s = .next t →
    (∀ r, t.getByte r = s.getByte r) ∧ t.sp = s.sp ∧
    (t.status = s.status ∨ ∃ c, t.status = .faulted c) ∧
    (∀ x, (∀ a ∈ storeAddresses s.cfg.regCodes i, s.route a ≠ .ok x) → t.slotByte x = s.slotByte x) ∧
    (∀ a, t.route a = s.route a) ∧ t.cfg = s.cfg

/-! ### Reset -/

/-- R45: the bus bounds are absent iff there is no region, are otherwise the least start and the greatest end, and never
shrink when a region is added. -/
def Obligations.BusBoundsAreLeastStartAndGreatestEnd : Prop :=
  (∀ rs : List Region, (busStart rs = none ↔ rs = []) ∧ (busEnd rs = none ↔ rs = []) ∧
    (∀ lo, busStart rs = some lo → (∃ r ∈ rs, r.start = lo) ∧ ∀ r ∈ rs, lo ≤ r.start) ∧
    ∀ hi, busEnd rs = some hi → (∃ r ∈ rs, r.stop = hi) ∧ ∀ r ∈ rs, r.stop ≤ hi) ∧
  ∀ (c : Config) (start stop : Word) (d : Nat) (lo hi : Word),
    busStart c.regions = some lo → busEnd c.regions = some hi →
    ∃ lo' hi', busStart (addRegion c start stop d).regions = some lo' ∧
      busEnd (addRegion c start stop d).regions = some hi' ∧ lo' ≤ lo ∧ hi ≤ hi'

/-- R230: reset over an empty bus raises NoMemory and gives no state, and over a bus with a region it never does. -/
def Obligations.ResetRaisesNoMemoryExactlyOverAnEmptyBus : Prop :=
  ∀ (c : Config) (devices : List Device),
    (c.regions = [] → resetOn c devices = .fault .noMemory) ∧
    (∀ f, resetOn c devices = .fault f → c.regions = [])

/-- R48, R231, R232 (D7, D17): over a legal configuration reset zeroes A to H, loads PC with busStart and SP with busEnd,
gives the devices their images, and leaves the engine Running and the invariant holding. -/
def Obligations.ResetLoadsTheResetValues : Prop :=
  ∀ (c : Config) (devices : List Device), c.wf devices.length = true → Memory.wf devices = true →
    ∃ t, resetOn c devices = .next t ∧ (∀ r, t.getByte r = 0) ∧ busStart c.regions = some t.pc ∧
      busEnd c.regions = some t.sp ∧ t.status = .running ∧ t.devices = devices ∧ t.cfg = c ∧ t.Inv

/-- R62, R232 (D17): a device given an image has the image's length, is in canonical form, and holds the image's bytes. -/
def Obligations.DeviceHoldsTheImageItIsGiven : Prop :=
  ∀ image : List Byte, (deviceOf image).wf = true ∧ (deviceOf image).len = image.length ∧
    ∀ t < image.length, image[t]? = some (cellRead (deviceOf image).cells t)

/-- R44 (D10): reset refuses a configuration with a region whose start is above its end. -/
def Obligations.ResetRefusesAReversedRegion : Prop :=
  ∀ (c : Config) (devices : List Device) (r : Region), r ∈ c.regions → r.stop < r.start →
    resetOn c devices = .refused .reversedRegion

/-- R48, R231: the model's reset state is reset over its own platform, one region over the whole space bound to the
zero-initialised 65536-byte array (the model's choice, log entry 1). -/
def Obligations.ResetStateIsResetOverTheFullPlatform : Prop :=
  resetOn fullBus [⟨65536, []⟩] = .next State.reset
end

