-- ==== Sys2Proof/Laws/Words.lean ====
section
/-!
SUPPORT. Byte order (R10) and the opcode map.
-/

namespace Sys2Proof

theorem cat_toNat (h l : Byte) : (cat h l).toNat = h.toNat * 256 + l.toNat := by
  show (h ++ l : BitVec (8 + 8)).toNat = _
  rw [BitVec.toNat_append, ← Nat.shiftLeft_add_eq_or_of_lt l.isLt, Nat.shiftLeft_eq]

theorem high_toNat (v : Word) : (high v).toNat = v.toNat / 256 % 256 := by
  simp [high, Nat.shiftRight_eq_div_pow]

theorem low_toNat (v : Word) : (low v).toNat = v.toNat % 256 := by
  simp [low]

/-- A word is its two bytes rejoined. -/
theorem cat_high_low (v : Word) : cat (high v) (low v) = v := by
  apply BitVec.eq_of_toNat_eq
  rw [cat_toNat, high_toNat, low_toNat]
  omega

theorem high_cat (h l : Byte) : high (cat h l) = h := by
  apply BitVec.eq_of_toNat_eq
  rw [high_toNat, cat_toNat]
  omega

theorem low_cat (h l : Byte) : low (cat h l) = l := by
  apply BitVec.eq_of_toNat_eq
  rw [low_toNat, cat_toNat]
  omega

/-- Each opcode byte is looked up as its own opcode. -/
@[simp] theorem decodeOpcode_code (o : Opcode) : decodeOpcode o.code = o := by cases o <;> rfl

/-- An assigned opcode byte is the code of what it decodes to. -/
theorem code_decodeOpcode {op : Byte} (h : assignedOpcode op = true) : (decodeOpcode op).code = op := by
  simp only [assignedOpcode, List.any_eq_true, beq_iff_eq] at h
  obtain ⟨o, -, rfl⟩ := h
  rw [decodeOpcode_code]

/-- What the decoder reads, and what it leaves, when it reads something. -/
theorem decode_cons {op : Byte} {tail rest : List Byte} {i : Instr}
    (h : decode (op :: tail) = .ok (i, rest)) :
    (decodeOpcode op).size ≤ tail.length + 1 ∧
    i = assemble (decodeOpcode op) (tail.getD 0 0) (tail.getD 1 0) (tail.getD 2 0) (tail.getD 3 0) ∧
    rest = tail.drop ((decodeOpcode op).size - 1) := by
  simp only [decode] at h
  split at h
  · simp at h
  · rename_i hl
    simp only [Except.ok.injEq, Prod.mk.injEq] at h
    exact ⟨by omega, h.1.symm, h.2.symm⟩

end Sys2Proof
end

