-- ==== Sys2Proof/Laws/State.lean ====
section
/-!
SUPPORT. One lemma per field per update of State, and the register accessors.
-/

namespace Sys2Proof.Machine

section Fields
variable (s : State) (r : ByteReg) (w : WideReg) (v : Byte) (u : Word) (x : Slot) (c : Condition) (k : Nat)

@[simp] theorem setByte_pc : (s.setByte r v).pc = s.pc := by cases r <;> rfl
@[simp] theorem setByte_sp : (s.setByte r v).sp = s.sp := by cases r <;> rfl
@[simp] theorem setByte_status : (s.setByte r v).status = s.status := by cases r <;> rfl
@[simp] theorem setByte_devices : (s.setByte r v).devices = s.devices := by cases r <;> rfl
@[simp] theorem setByte_cfg : (s.setByte r v).cfg = s.cfg := by cases r <;> rfl

@[simp] theorem setWide_status : (s.setWide w u).status = s.status := by cases w <;> rfl
@[simp] theorem setWide_devices : (s.setWide w u).devices = s.devices := by cases w <;> rfl
@[simp] theorem setWide_cfg : (s.setWide w u).cfg = s.cfg := by cases w <;> rfl
@[simp] theorem setWide_pc_pc : (s.setWide .pc u).pc = u := rfl
@[simp] theorem setWide_pc_sp : (s.setWide .pc u).sp = s.sp := rfl
@[simp] theorem setWide_pc_eq : s.setWide .pc u = { s with pc := u } := rfl

@[simp] theorem setSlot_getByte : (s.setSlot x v).getByte r = s.getByte r := by cases r <;> rfl
@[simp] theorem setSlot_getWide : (s.setSlot x v).getWide w = s.getWide w := by cases w <;> rfl
@[simp] theorem setSlot_pc : (s.setSlot x v).pc = s.pc := rfl
@[simp] theorem setSlot_sp : (s.setSlot x v).sp = s.sp := rfl
@[simp] theorem setSlot_status : (s.setSlot x v).status = s.status := rfl
@[simp] theorem setSlot_cfg : (s.setSlot x v).cfg = s.cfg := rfl

@[simp] theorem stopWith_getByte : (s.stopWith c).getByte r = s.getByte r := by
  cases c <;> cases r <;> rfl
@[simp] theorem stopWith_pc : (s.stopWith c).pc = s.pc := by cases c <;> rfl
@[simp] theorem stopWith_sp : (s.stopWith c).sp = s.sp := by cases c <;> rfl
@[simp] theorem stopWith_devices : (s.stopWith c).devices = s.devices := by cases c <;> rfl
@[simp] theorem stopWith_cfg : (s.stopWith c).cfg = s.cfg := by cases c <;> rfl
@[simp] theorem stopWith_halt_status : (s.stopWith .halt).status = .halted := rfl
@[simp] theorem stopWith_fault_status (e : Cause) : (s.stopWith (.fault e)).status = .faulted e := rfl

@[simp] theorem advance_getByte : (s.advance k).getByte r = s.getByte r := by cases r <;> rfl
@[simp] theorem advance_pc : (s.advance k).pc = s.pc + BitVec.ofNat 16 k := rfl
@[simp] theorem advance_sp : (s.advance k).sp = s.sp := rfl
@[simp] theorem advance_status : (s.advance k).status = s.status := rfl
@[simp] theorem advance_devices : (s.advance k).devices = s.devices := rfl
@[simp] theorem advance_cfg : (s.advance k).cfg = s.cfg := rfl

@[simp] theorem getWide_pc : s.getWide .pc = s.pc := rfl
@[simp] theorem getWide_sp : s.getWide .sp = s.sp := rfl

end Fields

/-- A byte register reads what was last written to it. -/
@[simp] theorem setByte_getByte_same (s : State) (r : ByteReg) (v : Byte) :
    (s.setByte r v).getByte r = v := by cases r <;> rfl

/-- Writing a byte register leaves the others alone. -/
theorem setByte_getByte_other (s : State) {r q : ByteReg} (v : Byte) (h : q ≠ r) :
    (s.setByte r v).getByte q = s.getByte q := by
  cases r <;> cases q <;> first | rfl | exact absurd rfl h

/-- Writing a wide register leaves the byte registers alone that are no half of it. -/
theorem setWide_getByte_other (s : State) {w : WideReg} {r : ByteReg} (v : Word)
    (h : covers (.wide w) r = false) : (s.setWide w v).getByte r = s.getByte r := by
  cases w <;> cases r <;> first | rfl | exact absurd h (by decide)

/-- Writing a wide register other than SP leaves SP alone. -/
theorem setWide_sp_other (s : State) {w : WideReg} (v : Word) (h : w ≠ .sp) :
    (s.setWide w v).sp = s.sp := by
  cases w <;> first | rfl | exact absurd rfl h

/-- Moving PC twice is moving it by the sum. -/
@[simp] theorem advance_advance (s : State) (j k : Nat) :
    (s.advance j).advance k = s.advance (j + k) := by
  simp only [State.advance, State.mk.injEq, true_and, and_true]
  rw [BitVec.ofNat_add, BitVec.add_assoc]

end Sys2Proof.Machine
end

