-- ==== Sys2Proof/Laws/Memory.lean ====
section
/-!
SUPPORT. Device bytes: read after write, and the canonical form that every write keeps.
-/

namespace Sys2Proof.Machine

/-! ### Cells -/

/-- The canonical form of a list of cells below a bound; `Device.wf` as a proposition. -/
theorem device_wf_iff (dev : Device) :
    dev.wf = true ↔ dev.cells.Pairwise (fun x y => x.1 < y.1) ∧
      ∀ x ∈ dev.cells, x.1 < dev.len ∧ x.2 ≠ unlistedByte := by
  simp [Device.wf, List.all_eq_true]

theorem cellRead_cellCons (m : List Host.Cell) (t t' : Nat) (v : Byte)
    (h : cellRead m t = unlistedByte) :
    cellRead (cellCons t v m) t' = if t = t' then v else cellRead m t' := by
  unfold cellCons
  split
  · rename_i hv
    split
    · rename_i ht
      rw [← ht, h, hv]
    · rfl
  · rfl

/-- A list whose addresses all lie above `t` lists nothing at `t`. -/
theorem cellRead_below {m : List Host.Cell} {t : Nat} (h : ∀ x ∈ m, t < x.1) :
    cellRead m t = unlistedByte := by
  induction m with
  | nil => rfl
  | cons x m ih =>
    have hx : ¬ x.1 = t := by
      have := h x (by simp)
      omega
    show (if x.1 = t then x.2 else cellRead m t) = unlistedByte
    rw [if_neg hx]
    exact ih fun y hy => h y (by simp [hy])

/-- In canonical form, a read after a write gives the written byte there and the old byte elsewhere. -/
theorem cellRead_cellWrite {m : List Host.Cell} (hm : m.Pairwise fun x y => x.1 < y.1)
    (t t' : Nat) (v : Byte) :
    cellRead (cellWrite m t v) t' = if t = t' then v else cellRead m t' := by
  induction m with
  | nil => exact cellRead_cellCons [] t t' v rfl
  | cons x m ih =>
    obtain ⟨k, u⟩ := x
    have hk := (List.pairwise_cons.mp hm).1
    unfold cellWrite
    split
    · rename_i hlt
      refine cellRead_cellCons _ t t' v (cellRead_below ?_)
      intro y hy
      rcases List.mem_cons.mp hy with rfl | hy
      · exact hlt
      · exact hlt.trans (hk y hy)
    · split
      · rename_i heq
        subst heq
        rw [cellRead_cellCons m t t' v (cellRead_below hk)]
        by_cases ht : t = t' <;> simp [cellRead, ht]
      · rename_i hne
        show (if k = t' then u else cellRead (cellWrite m t v) t') = _
        rw [ih (List.pairwise_cons.mp hm).2]
        by_cases hkt : k = t'
        · subst hkt
          simp [cellRead, hne]
        · simp [cellRead, hkt]

/-- A write leaves every other address alone, whatever the list. -/
theorem cellRead_cellWrite_other (m : List Host.Cell) {t t' : Nat} (v : Byte) (h : t ≠ t') :
    cellRead (cellWrite m t v) t' = cellRead m t' := by
  have hc : ∀ n, cellRead (cellCons t v n) t' = cellRead n t' := by
    intro n
    unfold cellCons
    split
    · rfl
    · simp [cellRead, h]
  induction m with
  | nil => exact hc []
  | cons x m ih =>
    obtain ⟨k, u⟩ := x
    unfold cellWrite
    split
    · exact hc _
    · split
      · rename_i heq
        subst heq
        rw [hc]
        simp [cellRead, h]
      · simp [cellRead, ih]

/-- Every cell of a written list is the written one or was there before. -/
theorem mem_cellWrite {m : List Host.Cell} {t : Nat} {v : Byte} {x : Host.Cell}
    (hx : x ∈ cellWrite m t v) : (x = (t, v) ∧ v ≠ unlistedByte) ∨ x ∈ m := by
  induction m with
  | nil =>
    simp only [cellWrite, cellCons] at hx
    split at hx <;> simp_all
  | cons y m ih =>
    obtain ⟨k, u⟩ := y
    simp only [cellWrite, cellCons] at hx
    split at hx
    · split at hx
      · exact .inr hx
      · simp_all
    · split at hx
      · split at hx
        · simp [hx]
        · simp_all
          tauto
      · rcases List.mem_cons.mp hx with rfl | hx
        · simp
        · rcases ih hx with h | h
          · exact .inl h
          · exact .inr (by simp [h])

/-- A write keeps the addresses strictly rising. -/
theorem cellWrite_pairwise {m : List Host.Cell} (hm : m.Pairwise fun x y => x.1 < y.1)
    (t : Nat) (v : Byte) : (cellWrite m t v).Pairwise fun x y => x.1 < y.1 := by
  induction m with
  | nil =>
    simp only [cellWrite, cellCons]
    split <;> simp
  | cons y m ih =>
    obtain ⟨k, u⟩ := y
    obtain ⟨hk, hm'⟩ := List.pairwise_cons.mp hm
    simp only [cellWrite, cellCons]
    split
    · rename_i hlt
      split
      · exact hm
      · refine List.pairwise_cons.mpr ⟨?_, hm⟩
        intro z hz
        rcases List.mem_cons.mp hz with rfl | hz
        · exact hlt
        · exact hlt.trans (hk z hz)
    · split
      · rename_i heq
        subst heq
        split
        · exact hm'
        · exact List.pairwise_cons.mpr ⟨hk, hm'⟩
      · refine List.pairwise_cons.mpr ⟨?_, ih hm'⟩
        intro z hz
        rcases mem_cellWrite hz with ⟨rfl, -⟩ | hz
        · show k < t
          omega
        · exact hk z hz

/-- A write inside a device keeps its canonical form. -/
theorem device_write_wf {dev : Device} (h : dev.wf = true) {t : Nat} (ht : t < dev.len) (v : Byte) :
    Device.wf { dev with cells := cellWrite dev.cells t v } = true := by
  rw [device_wf_iff] at h ⊢
  refine ⟨cellWrite_pairwise h.1 t v, fun x hx => ?_⟩
  rcases mem_cellWrite hx with ⟨rfl, hv⟩ | hx
  · exact ⟨ht, hv⟩
  · exact h.2 x hx

/-- Two canonical lists of cells that read alike everywhere are equal. -/
theorem cells_ext {m n : List Host.Cell} (hm : m.Pairwise fun x y => x.1 < y.1)
    (hm0 : ∀ x ∈ m, x.2 ≠ unlistedByte) (hn : n.Pairwise fun x y => x.1 < y.1)
    (hn0 : ∀ x ∈ n, x.2 ≠ unlistedByte) (h : ∀ t, cellRead m t = cellRead n t) : m = n := by
  induction m generalizing n with
  | nil =>
    cases n with
    | nil => rfl
    | cons y n =>
      have := h y.1
      simp only [cellRead, if_true] at this
      exact absurd this.symm (hn0 y (by simp))
  | cons x m ih =>
    cases n with
    | nil =>
      have := h x.1
      simp only [cellRead, if_true] at this
      exact absurd this (hm0 x (by simp))
    | cons y n =>
      obtain ⟨hx, hm'⟩ := List.pairwise_cons.mp hm
      obtain ⟨hy, hn'⟩ := List.pairwise_cons.mp hn
      have key : x.1 = y.1 := by
        rcases Nat.lt_trichotomy x.1 y.1 with hlt | heq | hgt
        · have := h x.1
          rw [cellRead_below (m := y :: n) (t := x.1) (by
            intro z hz
            rcases List.mem_cons.mp hz with rfl | hz
            · exact hlt
            · exact hlt.trans (hy z hz))] at this
          simp only [cellRead, if_true] at this
          exact absurd this (hm0 x (by simp))
        · exact heq
        · have := h y.1
          rw [cellRead_below (m := x :: m) (t := y.1) (by
            intro z hz
            rcases List.mem_cons.mp hz with rfl | hz
            · exact hgt
            · exact hgt.trans (hx z hz))] at this
          simp only [cellRead, if_true] at this
          exact absurd this.symm (hn0 y (by simp))
      have hv : x.2 = y.2 := by
        have := h x.1
        simpa [cellRead, key] using this
      have hxy : x = y := Prod.ext key hv
      subst hxy
      congr 1
      refine ih hm' (fun z hz => hm0 z (by simp [hz])) hn' (fun z hz => hn0 z (by simp [hz])) fun t => ?_
      by_cases ht : x.1 = t
      · rw [cellRead_below (fun z hz => ht ▸ hx z hz), cellRead_below (fun z hz => ht ▸ hy z hz)]
      · simpa [cellRead, ht] using h t

/-! ### Slots of a state -/

@[simp] theorem setSlot_devices_length (s : State) (x : Slot) (v : Byte) :
    (s.setSlot x v).devices.length = s.devices.length := by
  simp [State.setSlot]

/-- A write changes no device's length, so what a device has a byte for stays. -/
@[simp] theorem setSlot_hasByte (s : State) (x : Slot) (v : Byte) (d t : Nat) :
    (s.setSlot x v).hasByte d t = s.hasByte d t := by
  simp only [State.hasByte, State.setSlot, List.getElem?_modify]
  by_cases h : x.device = d <;> cases s.devices[d]? <;> simp [h]

/-- A write leaves every other byte of every device alone. -/
theorem setSlot_slotByte_other (s : State) {x y : Slot} (v : Byte) (h : y ≠ x) :
    (s.setSlot x v).slotByte y = s.slotByte y := by
  simp only [State.slotByte, State.setSlot, List.getElem?_modify]
  cases hd : s.devices[y.device]? with
  | none => rfl
  | some dev =>
    by_cases hx : x.device = y.device
    · have ht : x.offset ≠ y.offset := fun ho => h (by cases x; cases y; simp_all)
      simp [hx, cellRead_cellWrite_other _ v ht]
    · simp [hx]

/-- A write to a byte that exists reads back. -/
theorem setSlot_slotByte_same {s : State} {x : Slot} (hs : Memory.wf s.devices = true) (v : Byte)
    (h : s.hasByte x.device x.offset = true) : (s.setSlot x v).slotByte x = v := by
  simp only [State.slotByte, State.setSlot, List.getElem?_modify]
  cases hd : s.devices[x.device]? with
  | none => simp [State.hasByte, hd] at h
  | some dev =>
    have hw := List.all_eq_true.mp hs dev (List.mem_of_getElem? hd)
    simp [cellRead_cellWrite ((device_wf_iff dev).mp hw).1]

/-- A write to a byte that exists keeps the canonical form of memory. -/
theorem setSlot_memory_wf {s : State} {x : Slot} (hs : Memory.wf s.devices = true) (v : Byte)
    (h : s.hasByte x.device x.offset = true) : Memory.wf (s.setSlot x v).devices = true := by
  rw [Memory.wf, List.all_eq_true] at hs ⊢
  intro dev hdev
  obtain ⟨i, hi⟩ := List.mem_iff_getElem?.mp hdev
  simp only [State.setSlot, List.getElem?_modify] at hi
  cases hd : s.devices[i]? with
  | none => simp [hd] at hi
  | some old =>
    have hold := hs old (List.mem_of_getElem? hd)
    by_cases hx : x.device = i
    · have hb : x.offset < old.len := by simpa [State.hasByte, hx, hd] using h
      have : dev = { old with cells := cellWrite old.cells x.offset v } := by
        simpa [hd, hx] using hi.symm
      rw [this]
      exact device_write_wf hold hb v
    · have : dev = old := by simpa [hd, hx] using hi.symm
      rw [this]
      exact hold

end Sys2Proof.Machine
end

