-- ==== Sys2Proof/Laws/Bus.lean ====
section
/-!
SUPPORT. The bus: what each shared operation of Machine/Ops.lean does, said once, so that no later proof
unfolds it.
-/

namespace Sys2Proof.Machine

/-! ### Sequencing -/

@[simp] theorem m_bind {α β : Type} (m : M α) (f : α → M β) (s : State) :
    (m >>= f) s = match m s with
      | .ok v t => f v t
      | .error c t => .error c t := by
  show EStateM.bind m f s = _
  unfold EStateM.bind
  cases m s <;> rfl

@[simp] theorem m_map {α β : Type} (f : α → β) (m : M α) (s : State) :
    (f <$> m) s = match m s with
      | .ok v t => .ok (f v) t
      | .error c t => .error c t := by
  show EStateM.map f m s = _
  unfold EStateM.map
  cases m s <;> rfl

@[simp] theorem m_pure {α : Type} (v : α) (s : State) : (pure v : M α) s = .ok v s := rfl

@[simp] theorem raise_apply {α : Type} (c : Condition) (s : State) :
    (raise c : M α) s = .error c s := rfl

@[simp] theorem readByte_apply (r : ByteReg) (s : State) : readByte r s = .ok (s.getByte r) s := rfl
@[simp] theorem writeByte_apply (r : ByteReg) (v : Byte) (s : State) :
    writeByte r v s = .ok () (s.setByte r v) := rfl
@[simp] theorem readWide_apply (w : WideReg) (s : State) : readWide w s = .ok (s.getWide w) s := rfl
@[simp] theorem writeWide_apply (w : WideReg) (v : Word) (s : State) :
    writeWide w v s = .ok () (s.setWide w v) := rfl

@[simp] theorem conclude_ok (v : Unit) (s : State) : conclude (.ok v s) = .next s := rfl
@[simp] theorem conclude_error (c : Condition) (s : State) :
    conclude (.error c s) = .next (s.stopWith c) := rfl

/-- A step's conclusion is always a next state. -/
theorem conclude_next (r : EStateM.Result Condition State Unit) : ∃ t, conclude r = .next t := by
  cases r <;> exact ⟨_, rfl⟩

/-! ### Routing -/

/-- Where a bus access lands depends on the regions and the devices' lengths alone. -/
theorem route_congr {s t : State} (hc : t.cfg = s.cfg) (hb : ∀ d k, t.hasByte d k = s.hasByte d k)
    (a : Word) : t.route a = s.route a := by
  simp [State.route, hc, hb]

theorem hasByte_congr {s t : State} (hd : t.devices = s.devices) (d k : Nat) :
    t.hasByte d k = s.hasByte d k := by simp [State.hasByte, hd]

theorem slotByte_congr {s t : State} (hd : t.devices = s.devices) (x : Slot) :
    t.slotByte x = s.slotByte x := by simp [State.slotByte, hd]

@[simp] theorem setSlot_route (s : State) (x : Slot) (v : Byte) (a : Word) :
    (s.setSlot x v).route a = s.route a := 
  route_congr (s := s) (t := s.setSlot x v) rfl (setSlot_hasByte s x v) a

@[simp] theorem advance_route (s : State) (k : Nat) (a : Word) :
    (s.advance k).route a = s.route a := 
  route_congr (s := s) (t := s.advance k) rfl (hasByte_congr rfl) a

@[simp] theorem advance_slotByte (s : State) (k : Nat) (x : Slot) :
    (s.advance k).slotByte x = s.slotByte x := slotByte_congr rfl x

@[simp] theorem setByte_slotByte (s : State) (r : ByteReg) (v : Byte) (x : Slot) :
    (s.setByte r v).slotByte x = s.slotByte x := slotByte_congr (by simp) x

@[simp] theorem setWide_slotByte (s : State) (w : WideReg) (v : Word) (x : Slot) :
    (s.setWide w v).slotByte x = s.slotByte x := slotByte_congr (by simp) x

@[simp] theorem stopWith_slotByte (s : State) (c : Condition) (x : Slot) :
    (s.stopWith c).slotByte x = s.slotByte x := slotByte_congr (by simp) x

@[simp] theorem advance_peek (s : State) (k : Nat) (a : Word) :
    (s.advance k).peek a = s.peek a := by simp [State.peek]

/-- A byte a bus access reaches exists in its device. -/
theorem hasByte_of_route {s : State} {a : Word} {x : Slot} (h : s.route a = .ok x) :
    s.hasByte x.device x.offset = true := by
  simp only [State.route] at h
  split at h
  · simp at h
  · split at h
    · rename_i hb
      simp only [Except.ok.injEq] at h
      subst h
      exact hb
    · simp at h

/-- A failing route is an OutOfBounds. -/
theorem route_error {s : State} {a : Word} {c : Cause} (h : s.route a = .error c) :
    ∃ b, c = .outOfBounds b := by
  simp only [State.route] at h
  split at h
  · exact ⟨_, by simpa using h.symm⟩
  · split at h
    · simp at h
    · exact ⟨_, by simpa using h.symm⟩

/-! ### Byte accesses -/

theorem memRead8_ok {s : State} {a : Word} {x : Slot} (h : s.route a = .ok x) :
    memRead8 a s = .ok (s.slotByte x) s := by simp [memRead8, h]

theorem memRead8_error {s : State} {a : Word} {c : Cause} (h : s.route a = .error c) :
    memRead8 a s = .error (.fault c) s := by simp [memRead8, h]

theorem memWrite8_ok {s : State} {a : Word} {x : Slot} (h : s.route a = .ok x) (v : Byte) :
    memWrite8 a v s = .ok () (s.setSlot x v) := by simp [memWrite8, h]

theorem memWrite8_error {s : State} {a : Word} {c : Cause} (h : s.route a = .error c) (v : Byte) :
    memWrite8 a v s = .error (.fault c) s := by simp [memWrite8, h]

/-! ### The address increment -/

@[simp] theorem advance_canInc (s : State) (j k : Nat) (a : Word) :
    (s.advance j).canInc a k = s.canInc a k := rfl

@[simp] theorem setSlot_canInc (s : State) (x : Slot) (v : Byte) (a : Word) (k : Nat) :
    (s.setSlot x v).canInc a k = s.canInc a k := rfl

theorem canInc_iff (s : State) (a : Word) (k : Nat) :
    s.canInc a k = true ↔ s.cfg.wrap16 = true ∨ a.toNat + k ≤ 0xFFFF := by
  simp [State.canInc]

theorem inc16_ok {s : State} {a : Word} {k : Nat} (h : s.canInc a k = true) :
    inc16 a k s = .ok (a + BitVec.ofNat 16 k) s := by
  rcases (canInc_iff s a k).mp h with h | h <;> simp [inc16, h]

theorem inc16_error {s : State} {a : Word} {k : Nat} (h : s.canInc a k = false) :
    inc16 a k s = .error (.fault (.addressOverflow a)) s := by
  simp only [State.canInc, Bool.or_eq_false_iff, decide_eq_false_iff_not] at h
  simp [inc16, h.1, h.2]

/-! ### Word accesses -/

theorem memRead16_ok {s : State} {a : Word} {x y : Slot} (h : s.WordAt a x y) :
    memRead16 a s = .ok (cat (s.slotByte x) (s.slotByte y)) s := by
  obtain ⟨hx, hi, hy⟩ := h
  simp [memRead16, memRead8_ok hx, inc16_ok hi, memRead8_ok hy]

theorem memWrite16_ok {s : State} {a : Word} {x y : Slot} (h : s.WordAt a x y) (v : Word) :
    memWrite16 a v s = .ok () ((s.setSlot x (high v)).setSlot y (low v)) := by
  obtain ⟨hx, hi, hy⟩ := h
  have hi' : (s.setSlot x (high v)).canInc a 1 = true := hi
  have hy' : (s.setSlot x (high v)).route (a + 1#16) = .ok y := by simpa using hy
  simp [memWrite16, memWrite8_ok hx, inc16_ok hi', memWrite8_ok hy']

theorem memRead16_first {s : State} {a : Word} {c : Cause} (h : s.route a = .error c) :
    memRead16 a s = .error (.fault c) s := by simp [memRead16, memRead8_error h]

theorem memWrite16_first {s : State} {a : Word} {c : Cause} (h : s.route a = .error c) (v : Word) :
    memWrite16 a v s = .error (.fault c) s := by simp [memWrite16, memWrite8_error h]

theorem memRead16_second {s : State} {a : Word} {x : Slot} {c : Cause} (hx : s.route a = .ok x)
    (h : s.secondByteFault a = some c) : memRead16 a s = .error (.fault c) s := by
  simp only [State.secondByteFault] at h
  split at h
  · rename_i hi
    split at h
    · simp at h
    · rename_i hr
      simp only [Option.some.injEq] at h
      subst h
      simp [memRead16, memRead8_ok hx, inc16_ok hi, memRead8_error hr]
  · rename_i hi
    simp only [Option.some.injEq] at h
    subst h
    simp [memRead16, memRead8_ok hx, inc16_error (Bool.not_eq_true _ ▸ hi)]

theorem memWrite16_second {s : State} {a : Word} {x : Slot} {c : Cause} (hx : s.route a = .ok x)
    (h : s.secondByteFault a = some c) (v : Word) :
    memWrite16 a v s = .error (.fault c) (s.setSlot x (high v)) := by
  simp only [State.secondByteFault] at h
  split at h
  · rename_i hi
    split at h
    · simp at h
    · rename_i hr
      simp only [Option.some.injEq] at h
      subst h
      have hi' : (s.setSlot x (high v)).canInc a 1 = true := hi
      have hr' : (s.setSlot x (high v)).route (a + 1#16) = _ := (setSlot_route ..).trans hr
      simp [memWrite16, memWrite8_ok hx, inc16_ok hi', memWrite8_error hr']
  · rename_i hi
    simp only [Option.some.injEq] at h
    subst h
    have hi' : (s.setSlot x (high v)).canInc a 1 = false := Bool.not_eq_true _ ▸ hi
    simp [memWrite16, memWrite8_ok hx, inc16_error hi']

/-- The three ways a word access can go. -/
theorem word_cases (s : State) (a : Word) :
    (∃ c, s.route a = .error c) ∨
    (∃ x c, s.route a = .ok x ∧ s.secondByteFault a = some c) ∨ ∃ x y, s.WordAt a x y := by
  cases hx : s.route a with
  | error c => exact .inl ⟨c, rfl⟩
  | ok x =>
    right
    cases hi : s.canInc a 1 with
    | false => exact .inl ⟨x, .addressOverflow a, rfl, by simp [State.secondByteFault, hi]⟩
    | true =>
      cases hy : s.route (a + 1#16) with
      | error c => exact .inl ⟨x, c, rfl, by simp [State.secondByteFault, hi, hy]⟩
      | ok y => exact .inr ⟨x, y, hx, hi, hy⟩

/-- A second byte fails with AddressOverflow or OutOfBounds. -/
theorem secondByteFault_ofStep {s : State} {a : Word} {c : Cause} (h : s.secondByteFault a = some c) :
    c.ofStep = true := by
  simp only [State.secondByteFault] at h
  split at h
  · split at h
    · simp at h
    · rename_i hr
      obtain ⟨b, rfl⟩ := route_error hr
      simp only [Option.some.injEq] at h
      subst h
      rfl
  · simp only [Option.some.injEq] at h
    subst h
    rfl

theorem route_ofStep {s : State} {a : Word} {c : Cause} (h : s.route a = .error c) :
    c.ofStep = true := by
  obtain ⟨b, rfl⟩ := route_error h
  rfl

@[simp] theorem advance_wordAt (s : State) (k : Nat) (a : Word) (x y : Slot) :
    (s.advance k).WordAt a x y ↔ s.WordAt a x y := by simp [State.WordAt]

@[simp] theorem advance_secondByteFault (s : State) (k : Nat) (a : Word) :
    (s.advance k).secondByteFault a = s.secondByteFault a := by simp [State.secondByteFault]

/-! ### Regions (R44, R45) -/

/-- `busStart` is below every region's start. -/
theorem busStart_le {rs : List Region} {lo : Word} (h : busStart rs = some lo) : ∀ r ∈ rs, lo ≤ r.start := by
  induction rs generalizing lo with
  | nil => simp
  | cons y rs ih =>
    simp only [busStart] at h
    split at h
    · rename_i hn
      cases rs with
      | nil => simp_all
      | cons z zs =>
        simp only [busStart] at hn
        split at hn <;> simp at hn
    · rename_i m hm
      have hle := ih hm
      simp only [Option.some.injEq] at h
      intro r hr
      rcases List.mem_cons.mp hr with rfl | hr
      · split at h <;> bv_omega
      · have := hle r hr
        split at h <;> bv_omega

/-- `busEnd` is above every region's end. -/
theorem le_busEnd {rs : List Region} {hi : Word} (h : busEnd rs = some hi) : ∀ r ∈ rs, r.stop ≤ hi := by
  induction rs generalizing hi with
  | nil => simp
  | cons y rs ih =>
    simp only [busEnd] at h
    split at h
    · rename_i hn
      cases rs with
      | nil => simp_all
      | cons z zs =>
        simp only [busEnd] at hn
        split at hn <;> simp at hn
    · rename_i m hm
      have hle := ih hm
      simp only [Option.some.injEq] at h
      intro r hr
      rcases List.mem_cons.mp hr with rfl | hr
      · split at h <;> bv_omega
      · have := hle r hr
        split at h <;> bv_omega

theorem busStart_none {rs : List Region} : busStart rs = none ↔ rs = [] := by
  cases rs with
  | nil => simp [busStart]
  | cons r rs =>
    simp only [busStart]
    split <;> simp

theorem busEnd_none {rs : List Region} : busEnd rs = none ↔ rs = [] := by
  cases rs with
  | nil => simp [busEnd]
  | cons r rs =>
    simp only [busEnd]
    split <;> simp

/-- In a legal configuration two addresses never reach one byte. -/
theorem route_inj {s : State} (hs : s.cfg.wf s.devices.length = true) {a b : Word} {x : Slot}
    (ha : s.route a = .ok x) (hb : s.route b = .ok x) : a = b := by
  simp only [Config.wf, devicesBoundOnce, Bool.and_eq_true, decide_eq_true_eq] at hs
  have key : ∀ {a : Word}, s.route a = .ok x →
      ∃ r ∈ s.cfg.regions, r.device = x.device ∧ (a - r.start).toNat = x.offset := by
    intro a h
    simp only [State.route] at h
    split at h
    · simp at h
    · rename_i r hr
      split at h
      · simp only [Except.ok.injEq] at h
        subst h
        exact ⟨r, List.mem_of_find?_eq_some hr, rfl, rfl⟩
      · simp at h
  obtain ⟨r, hr, hd, ho⟩ := key ha
  obtain ⟨q, hq, hd', ho'⟩ := key hb
  obtain rfl : r = q := List.inj_on_of_nodup_map hs.1.2.1.2 hr hq (hd.trans hd'.symm)
  have := BitVec.eq_of_toNat_eq (ho.trans ho'.symm)
  bv_omega

/-- The two bytes of a word are two bytes. -/
theorem wordAt_ne {s : State} (hs : s.cfg.wf s.devices.length = true) {a : Word} {x y : Slot}
    (h : s.WordAt a x y) : y ≠ x := by
  rintro rfl
  have := route_inj hs h.1 h.2.2
  bv_omega

/-! ### Every memory operation keeps the canonical form -/

theorem memWrite8_memory_wf {s t : State} {a : Word} {v : Byte} (hs : Memory.wf s.devices = true)
    (h : memWrite8 a v s = .ok () t) : Memory.wf t.devices = true := by
  cases hr : s.route a with
  | error c => simp [memWrite8_error hr] at h
  | ok x =>
    rw [memWrite8_ok hr] at h
    obtain rfl : _ = t := by simpa using h
    exact setSlot_memory_wf hs v (hasByte_of_route hr)

theorem memWrite16_memory_wf {s t : State} {a v : Word} (hs : Memory.wf s.devices = true)
    (h : memWrite16 a v s = .ok () t ∨ ∃ c, memWrite16 a v s = .error c t) :
    Memory.wf t.devices = true := by
  rcases word_cases s a with ⟨c, hc⟩ | ⟨x, c, hx, hc⟩ | ⟨x, y, hw⟩
  · rw [memWrite16_first hc] at h
    obtain rfl : s = t := by simpa using h
    exact hs
  · rw [memWrite16_second hx hc] at h
    obtain rfl : _ = t := by simpa using h
    exact setSlot_memory_wf hs _ (hasByte_of_route hx)
  · rw [memWrite16_ok hw] at h
    obtain rfl : _ = t := by simpa using h
    exact setSlot_memory_wf (setSlot_memory_wf hs _ (hasByte_of_route hw.1)) _
      (by simpa using hasByte_of_route hw.2.2)

theorem poke_memory_wf {s : State} (hs : Memory.wf s.devices = true) (a : Word) (v : Byte) :
    Memory.wf (s.poke a v).devices = true := by
  unfold State.poke
  split
  · exact setSlot_memory_wf hs v (hasByte_of_route (by assumption))
  · exact hs

theorem reset_memory_wf : Memory.wf State.reset.devices = true := rfl

end Sys2Proof.Machine
end

