-- ==== Sys2Proof/Laws/Device.lean ====
section
/-!
SUPPORT. The cells of an image (R232).
-/

namespace Sys2Proof.Machine

/-- The cells of an image lie inside it. -/
theorem mem_cellsOf {k : Nat} {image : List Byte} {x : Host.Cell} (h : x ∈ cellsOf k image) :
    k ≤ x.1 ∧ x.1 < k + image.length ∧ x.2 ≠ unlistedByte := by
  induction image generalizing k with
  | nil => simp [cellsOf] at h
  | cons v vs ih =>
    simp only [cellsOf, cellCons] at h
    rw [List.length_cons]
    split at h
    · have := ih h
      exact ⟨by omega, by omega, this.2.2⟩
    · rename_i hv
      rcases List.mem_cons.mp h with rfl | h
      · exact ⟨Nat.le_refl k, by show k < _; omega, hv⟩
      · have := ih h
        exact ⟨by omega, by omega, this.2.2⟩

theorem cellsOf_pairwise (k : Nat) (image : List Byte) :
    (cellsOf k image).Pairwise fun x y => x.1 < y.1 := by
  induction image generalizing k with
  | nil => simp [cellsOf]
  | cons v vs ih =>
    simp only [cellsOf, cellCons]
    split
    · exact ih (k + 1)
    · refine List.pairwise_cons.mpr ⟨fun y hy => ?_, ih (k + 1)⟩
      have := (mem_cellsOf hy).1
      show k < y.1
      omega

end Sys2Proof.Machine
end

