-- ==== Sys2Proof/Laws/Fetch.lean ====
section
/-!
SUPPORT. Fetches and operands: what each does when its bytes can be fetched, and when they cannot.
-/

namespace Sys2Proof.Machine

/-! ### When fetches can be made -/

theorem serves_iff (s : State) (a : Word) : s.serves a = true ↔ ∃ x, s.route a = .ok x := by
  unfold State.serves
  cases s.route a <;> simp

theorem canFetch_iff (s : State) (k : Nat) :
    s.canFetch k = true ↔
      s.canInc s.pc k = true ∧ ∀ j < k, ∃ x, s.route (s.pc + BitVec.ofNat 16 j) = .ok x := by
  simp [State.canFetch, serves_iff, List.all_eq_true]

/-- Where more bytes can be fetched, fewer can. -/
theorem canFetch_mono {s : State} {j k : Nat} (h : s.canFetch k = true) (hj : j ≤ k) :
    s.canFetch j = true := by
  rw [canFetch_iff] at h ⊢
  refine ⟨?_, fun i hi => h.2 i (by omega)⟩
  rw [canInc_iff] at *
  exact h.1.imp_right fun _ => by omega

/-- After the first `j` of them, the rest can still be fetched. -/
theorem canFetch_advance {s : State} {j k : Nat} (h : s.canFetch (j + k) = true) :
    (s.advance j).canFetch k = true := by
  rw [canFetch_iff] at h ⊢
  refine ⟨?_, fun i hi => ?_⟩
  · have := h.1
    rw [canInc_iff] at this ⊢
    refine this.imp id fun hle => ?_
    have : (s.pc + BitVec.ofNat 16 j).toNat = s.pc.toNat + j := by
      rw [BitVec.toNat_add, BitVec.toNat_ofNat]
      omega
    simp only [advance_pc, this]
    omega
  · obtain ⟨x, hx⟩ := h.2 (j + i) (by omega)
    exact ⟨x, by simpa [BitVec.ofNat_add, BitVec.add_assoc] using hx⟩

/-! ### Fetches -/

/-- A byte fetch of a byte that is there. -/
theorem fetch8_ok {s : State} (h : s.canFetch 1 = true) :
    fetch8 s = .ok (s.peek s.pc) (s.advance 1) := by
  rw [canFetch_iff] at h
  obtain ⟨x, hx⟩ := h.2 0 (by omega)
  replace hx : s.route s.pc = .ok x := by simpa using hx
  have hx' : (s.advance 1).route s.pc = .ok x := by simpa using hx
  have hm := memRead8_ok hx'
  simp only [State.advance] at hm
  simp [fetch8, inc16_ok h.1, hm, State.peek, hx, State.advance, State.slotByte]

/-- A byte fetch at 0xFFFF without wrap changes nothing and stops. -/
theorem fetch8_overflow {s : State} (h : s.canInc s.pc 1 = false) :
    fetch8 s = .error (.fault (.addressOverflow s.pc)) s := by
  simp [fetch8, inc16_error h]

/-- A byte fetch whose bus read fails has moved PC. -/
theorem fetch8_miss {s : State} {c : Cause} (hi : s.canInc s.pc 1 = true)
    (h : s.route s.pc = .error c) : fetch8 s = .error (.fault c) (s.advance 1) := by
  have h' : (s.advance 1).route s.pc = .error c := by simpa using h
  have hm := memRead8_error h'
  simp only [State.advance] at hm
  simp [fetch8, inc16_ok hi, hm, State.advance]

/-- The three ways a byte fetch can go. -/
theorem fetch8_cases (s : State) :
    (s.canFetch 1 = true ∧ fetch8 s = .ok (s.peek s.pc) (s.advance 1)) ∨
    (s.canInc s.pc 1 = false ∧ fetch8 s = .error (.fault (.addressOverflow s.pc)) s) ∨
    (∃ c, s.route s.pc = .error c ∧ fetch8 s = .error (.fault c) (s.advance 1)) := by
  cases hi : s.canInc s.pc 1 with
  | false => exact .inr (.inl ⟨rfl, fetch8_overflow hi⟩)
  | true =>
    cases hr : s.route s.pc with
    | error c => exact .inr (.inr ⟨c, rfl, fetch8_miss hi hr⟩)
    | ok x =>
      have h : s.canFetch 1 = true := by
        rw [canFetch_iff]
        refine ⟨hi, fun j hj => ⟨x, ?_⟩⟩
        obtain rfl : j = 0 := by omega
        simpa using hr
      exact .inl ⟨h, fetch8_ok h⟩

/-- A word fetch moves PC by 2 before it reads. -/
theorem fetch16_eq {s : State} (h : s.canInc s.pc 2 = true) :
    fetch16 s = memRead16 s.pc (s.advance 2) := by
  simp only [fetch16, m_bind, readWide_apply, getWide_pc, inc16_ok h, writeWide_apply, setWide_pc_eq]
  rfl

theorem fetch16_overflow {s : State} (h : s.canInc s.pc 2 = false) :
    fetch16 s = .error (.fault (.addressOverflow s.pc)) s := by
  simp [fetch16, inc16_error h]

/-- Room for two bytes is room for one. -/
theorem canInc_mono {s : State} {a : Word} {j k : Nat} (h : s.canInc a k = true) (hj : j ≤ k) :
    s.canInc a j = true := by
  rw [canInc_iff] at *
  exact h.imp_right fun _ => by omega

/-- A word fetch of two bytes that are there. -/
theorem fetch16_ok {s : State} (h : s.canFetch 2 = true) :
    fetch16 s = .ok (cat (s.peek s.pc) (s.peek (s.pc + 1#16))) (s.advance 2) := by
  rw [canFetch_iff] at h
  obtain ⟨x, hx⟩ := h.2 0 (by omega)
  obtain ⟨y, hy⟩ := h.2 1 (by omega)
  replace hx : s.route s.pc = .ok x := by simpa using hx
  replace hy : s.route (s.pc + 1#16) = .ok y := hy
  have hw : (s.advance 2).WordAt s.pc x y :=
    (advance_wordAt ..).mpr ⟨hx, canInc_mono h.1 (by omega), hy⟩
  rw [fetch16_eq h.1, memRead16_ok hw]
  simp [State.peek, hx, hy]

/-- The three ways a word fetch can go. -/
theorem fetch16_cases (s : State) :
    (s.canFetch 2 = true ∧
      fetch16 s = .ok (cat (s.peek s.pc) (s.peek (s.pc + 1#16))) (s.advance 2)) ∨
    (s.canInc s.pc 2 = false ∧ fetch16 s = .error (.fault (.addressOverflow s.pc)) s) ∨
    (∃ c, c.ofStep = true ∧ fetch16 s = .error (.fault c) (s.advance 2)) := by
  cases hi : s.canInc s.pc 2 with
  | false => exact .inr (.inl ⟨rfl, fetch16_overflow hi⟩)
  | true =>
    rw [fetch16_eq hi]
    rcases word_cases s s.pc with ⟨c, hc⟩ | ⟨x, c, hx, hc⟩ | ⟨x, y, hw⟩
    · exact .inr (.inr ⟨c, route_ofStep hc, memRead16_first (by simpa using hc)⟩)
    · exact .inr (.inr ⟨c, secondByteFault_ofStep hc,
        memRead16_second (x := x) (by simpa using hx) (by simpa using hc)⟩)
    · have h : s.canFetch 2 = true := by
        rw [canFetch_iff]
        refine ⟨hi, fun j hj => ?_⟩
        have : j = 0 ∨ j = 1 := by omega
        rcases this with rfl | rfl
        · exact ⟨x, by simpa using hw.1⟩
        · exact ⟨y, hw.2.2⟩
      rw [← fetch16_eq hi]
      exact .inl ⟨h, fetch16_ok h⟩

/-! ### Operands -/

theorem operand8_ok {s : State} (h : s.canFetch 1 = true) (b : Byte) :
    operand8 b s = .ok b (s.advance 1) := by simp [operand8, fetch8_ok h]

theorem operand16_ok {s : State} (h : s.canFetch 2 = true) (w : Word) :
    operand16 w s = .ok w (s.advance 2) := by simp [operand16, fetch16_ok h]

theorem classByte_ok {s : State} {c : RegCode} {r : ByteReg} (h : s.cfg.regCodes.byteOf c = some r) :
    classByte c s = .ok r s := by simp [classByte, h]

theorem classByte_error {s : State} {c : RegCode} (h : s.cfg.regCodes.byteOf c = none) :
    classByte c s = .error (.fault (.invalidRegister c)) s := by simp [classByte, h]

theorem classWide_ok {s : State} {c : RegCode} {w : WideReg} (h : s.cfg.regCodes.wideOf c = some w) :
    classWide c s = .ok w s := by simp [classWide, h]

theorem classWide_error {s : State} {c : RegCode} (h : s.cfg.regCodes.wideOf c = none) :
    classWide c s = .error (.fault (.invalidRegister c)) s := by simp [classWide, h]

theorem classAny_ok {s : State} {c : RegCode} {q : AnyReg} (h : s.cfg.regCodes.anyOf c = some q) :
    classAny c s = .ok q s := by simp [classAny, h]

theorem classAny_error {s : State} {c : RegCode} (h : s.cfg.regCodes.anyOf c = none) :
    classAny c s = .error (.fault (.invalidRegister c)) s := by simp [classAny, h]

section Registers
variable {s : State} {c : RegCode} (h : s.canFetch 1 = true)
include h

theorem operandByteReg_ok {r : ByteReg} (hc : s.cfg.regCodes.byteOf c = some r) :
    operandByteReg c s = .ok r (s.advance 1) := by
  have hc' : (s.advance 1).cfg.regCodes.byteOf c = some r := hc
  simp [operandByteReg, operand8_ok h, classByte_ok hc']

theorem operandByteReg_invalid (hc : s.cfg.regCodes.byteOf c = none) :
    operandByteReg c s = .error (.fault (.invalidRegister c)) (s.advance 1) := by
  have hc' : (s.advance 1).cfg.regCodes.byteOf c = none := hc
  simp [operandByteReg, operand8_ok h, classByte_error hc']

theorem operandWideReg_ok {w : WideReg} (hc : s.cfg.regCodes.wideOf c = some w) :
    operandWideReg c s = .ok w (s.advance 1) := by
  have hc' : (s.advance 1).cfg.regCodes.wideOf c = some w := hc
  simp [operandWideReg, operand8_ok h, classWide_ok hc']

theorem operandWideReg_invalid (hc : s.cfg.regCodes.wideOf c = none) :
    operandWideReg c s = .error (.fault (.invalidRegister c)) (s.advance 1) := by
  have hc' : (s.advance 1).cfg.regCodes.wideOf c = none := hc
  simp [operandWideReg, operand8_ok h, classWide_error hc']

theorem operandAnyReg_ok {q : AnyReg} (hc : s.cfg.regCodes.anyOf c = some q) :
    operandAnyReg c s = .ok q (s.advance 1) := by
  have hc' : (s.advance 1).cfg.regCodes.anyOf c = some q := hc
  simp [operandAnyReg, operand8_ok h, classAny_ok hc']

theorem operandAnyReg_invalid (hc : s.cfg.regCodes.anyOf c = none) :
    operandAnyReg c s = .error (.fault (.invalidRegister c)) (s.advance 1) := by
  have hc' : (s.advance 1).cfg.regCodes.anyOf c = none := hc
  simp [operandAnyReg, operand8_ok h, classAny_error hc']

end Registers

end Sys2Proof.Machine
end

