-- ==== Sys2Proof/Laws/Frames.lean ====
section
/-!
SUPPORT. What each shared operation can do, success and failure together, said once. `Gives m s Q E` says that the line
`m` run from `s` either gives a value and a state that meet `Q`, or raises a condition in a state that meets `E`. It is
closed under sequencing, so what an instruction can do is read off its lines.
-/

namespace Sys2Proof.Machine

/-- Run from `s`, the line gives a value as `Q` says or raises a condition as `E` says. -/
def Gives {α : Type} (m : M α) (s : State) (Q : α → State → Prop) (E : Condition → State → Prop) : Prop :=
  match m s with
  | .ok v t => Q v t
  | .error c t => E c t

theorem gives_ok {α : Type} {m : M α} {s t : State} {v : α} {Q : α → State → Prop}
    {E : Condition → State → Prop} (h : m s = .ok v t) (hq : Q v t) : Gives m s Q E := by
  simpa [Gives, h] using hq

theorem gives_error {α : Type} {m : M α} {s t : State} {c : Condition} {Q : α → State → Prop}
    {E : Condition → State → Prop} (h : m s = .error c t) (he : E c t) : Gives m s Q E := by
  simpa [Gives, h] using he

/-- Sequencing: what the first line may leave is what the second may start from. -/
theorem gives_bind {α β : Type} {m : M α} {f : α → M β} {s : State} {P : α → State → Prop}
    {Q : β → State → Prop} {E : Condition → State → Prop} (hm : Gives m s P E)
    (hf : ∀ v t, P v t → Gives (f v) t Q E) : Gives (m >>= f) s Q E := by
  unfold Gives at hm
  cases hs : m s with
  | ok v t =>
    rw [hs] at hm
    have := hf v t hm
    simpa [Gives, hs] using this
  | error c t =>
    rw [hs] at hm
    simpa [Gives, hs] using hm

theorem gives_mono {α : Type} {m : M α} {s : State} {P Q : α → State → Prop}
    {D E : Condition → State → Prop} (h : Gives m s P D) (hq : ∀ v t, P v t → Q v t)
    (he : ∀ c t, D c t → E c t) : Gives m s Q E := by
  unfold Gives at *
  cases hs : m s with
  | ok v t =>
    rw [hs] at h
    exact hq v t h
  | error c t =>
    rw [hs] at h
    exact he c t h

/-- How a step that ran the line ends. -/
theorem conclude_gives {m : M Unit} {s t : State} {Q : Unit → State → Prop} {E : Condition → State → Prop}
    (h : Gives m s Q E) (hn : conclude (m s) = .next t) :
    Q () t ∨ ∃ c u, E c u ∧ t = u.stopWith c := by
  unfold Gives at h
  cases hs : m s with
  | ok v u =>
    rw [hs] at h hn
    obtain rfl : u = t := by simpa using hn
    exact .inl h
  | error c u =>
    rw [hs] at h hn
    exact .inr ⟨c, u, h, by simpa using hn.symm⟩

/-! ### States that differ in PC only, and the conditions a step can raise -/

/-- `t` is `s` but for PC. -/
def SameButPc (s t : State) : Prop := t = { s with pc := t.pc }

theorem SameButPc.refl (s : State) : SameButPc s s := rfl

theorem SameButPc.trans {s t u : State} (h : SameButPc s t) (h' : SameButPc t u) : SameButPc s u := by
  rw [SameButPc] at *
  rw [h', h]

theorem SameButPc.advance (s : State) (k : Nat) : SameButPc s (s.advance k) := rfl

section
variable {s t : State} (h : SameButPc s t)
include h

theorem SameButPc.getByte (r : ByteReg) : t.getByte r = s.getByte r := by
  rw [h]
  cases r <;> rfl
theorem SameButPc.sp : t.sp = s.sp := by rw [h]
theorem SameButPc.status : t.status = s.status := by rw [h]
theorem SameButPc.devices : t.devices = s.devices := by rw [h]
theorem SameButPc.cfg : t.cfg = s.cfg := by rw [h]
theorem SameButPc.route (a : Word) : t.route a = s.route a :=
  route_congr h.cfg (hasByte_congr h.devices) a
theorem SameButPc.slotByte (x : Slot) : t.slotByte x = s.slotByte x := slotByte_congr h.devices x
theorem SameButPc.secondByteFault (a : Word) : t.secondByteFault a = s.secondByteFault a := by
  simp only [State.secondByteFault, State.canInc, h.route, h.cfg]
  rfl

end

/-- The condition is a fault that a step can record (R137, R205, R206). -/
def StepFault (c : Condition) : Prop := ∃ e, c = .fault e ∧ e.ofStep = true

/-- A line that fails like a fetch does: PC may have moved, and nothing else has. -/
def FetchFault (s : State) (c : Condition) (t : State) : Prop := SameButPc s t ∧ StepFault c

theorem FetchFault.after {s t u : State} {c : Condition} (h : SameButPc s t) (h' : FetchFault t c u) :
    FetchFault s c u := ⟨h.trans h'.1, h'.2⟩

/-! ### Fetches and operands -/

theorem fetch8_gives (s : State) :
    Gives fetch8 s (fun b t => b = s.peek s.pc ∧ t = s.advance 1) (FetchFault s) := by
  rcases fetch8_cases s with ⟨-, h⟩ | ⟨-, h⟩ | ⟨c, hc, h⟩
  · exact gives_ok h ⟨rfl, rfl⟩
  · exact gives_error h ⟨.refl s, _, rfl, rfl⟩
  · exact gives_error h ⟨.advance s 1, _, rfl, route_ofStep hc⟩

theorem fetch16_gives (s : State) :
    Gives fetch16 s (fun _ t => t = s.advance 2) (FetchFault s) := by
  rcases fetch16_cases s with ⟨-, h⟩ | ⟨-, h⟩ | ⟨c, hc, h⟩
  · exact gives_ok h rfl
  · exact gives_error h ⟨.refl s, _, rfl, rfl⟩
  · exact gives_error h ⟨.advance s 2, _, rfl, hc⟩

theorem operand8_gives (b : Byte) (s : State) :
    Gives (operand8 b) s (fun v t => v = b ∧ SameButPc s t) (FetchFault s) :=
  gives_bind (fetch8_gives s) fun _ t ht => gives_ok (m_pure b t) ⟨rfl, ht.2 ▸ .advance s 1⟩

theorem operand16_gives (w : Word) (s : State) :
    Gives (operand16 w) s (fun v t => v = w ∧ SameButPc s t) (FetchFault s) :=
  gives_bind (fetch16_gives s) fun _ t ht => gives_ok (m_pure w t) ⟨rfl, ht ▸ .advance s 2⟩

theorem operandByteReg_gives (c : RegCode) (s : State) :
    Gives (operandByteReg c) s (fun r t => s.cfg.regCodes.byteOf c = some r ∧ SameButPc s t)
      (FetchFault s) := by
  refine gives_bind (operand8_gives c s) ?_
  rintro v t ⟨hv, ht⟩
  rw [hv]
  have hc := congrArg Config.regCodes ht.cfg
  cases h : t.cfg.regCodes.byteOf c with
  | some r => exact gives_ok (classByte_ok h) ⟨hc ▸ h, ht⟩
  | none => exact gives_error (classByte_error h) ⟨ht, _, rfl, rfl⟩

theorem operandWideReg_gives (c : RegCode) (s : State) :
    Gives (operandWideReg c) s (fun w t => s.cfg.regCodes.wideOf c = some w ∧ SameButPc s t)
      (FetchFault s) := by
  refine gives_bind (operand8_gives c s) ?_
  rintro v t ⟨hv, ht⟩
  rw [hv]
  have hc := congrArg Config.regCodes ht.cfg
  cases h : t.cfg.regCodes.wideOf c with
  | some w => exact gives_ok (classWide_ok h) ⟨hc ▸ h, ht⟩
  | none => exact gives_error (classWide_error h) ⟨ht, _, rfl, rfl⟩

theorem operandAnyReg_gives (c : RegCode) (s : State) :
    Gives (operandAnyReg c) s (fun q t => s.cfg.regCodes.anyOf c = some q ∧ SameButPc s t)
      (FetchFault s) := by
  refine gives_bind (operand8_gives c s) ?_
  rintro v t ⟨hv, ht⟩
  rw [hv]
  have hc := congrArg Config.regCodes ht.cfg
  cases h : t.cfg.regCodes.anyOf c with
  | some q => exact gives_ok (classAny_ok h) ⟨hc ▸ h, ht⟩
  | none => exact gives_error (classAny_error h) ⟨ht, _, rfl, rfl⟩

/-! ### Data accesses -/

theorem memRead8_gives (a : Word) (s : State) :
    Gives (memRead8 a) s (fun _ t => t = s) (FetchFault s) := by
  cases h : s.route a with
  | ok x => exact gives_ok (memRead8_ok h) rfl
  | error c => exact gives_error (memRead8_error h) ⟨.refl s, c, rfl, route_ofStep h⟩

theorem memRead16_gives (a : Word) (s : State) :
    Gives (memRead16 a) s (fun _ t => t = s) (FetchFault s) := by
  rcases word_cases s a with ⟨c, h⟩ | ⟨x, c, hx, h⟩ | ⟨x, y, h⟩
  · exact gives_error (memRead16_first h) ⟨.refl s, c, rfl, route_ofStep h⟩
  · exact gives_error (memRead16_second hx h) ⟨.refl s, c, rfl, secondByteFault_ofStep h⟩
  · exact gives_ok (memRead16_ok h) rfl

/-- Writing a register of either width. -/
def State.setAny (s : State) (q : AnyReg) (v : Word) : State :=
  match q with
  | .byte r => s.setByte r (low v)
  | .wide w => s.setWide w v

/-- A register write of either width touches nothing but registers, and of them only what it covers. -/
theorem setAny_frame (s : State) (q : AnyReg) (v : Word) :
    (∀ r, covers q r = false → (s.setAny q v).getByte r = s.getByte r) ∧
    (q ≠ .wide .sp → (s.setAny q v).sp = s.sp) ∧ (s.setAny q v).status = s.status ∧
    (s.setAny q v).devices = s.devices ∧ (s.setAny q v).cfg = s.cfg := by
  cases q with
  | byte r =>
    refine ⟨fun q h => setByte_getByte_other s _ ?_, fun _ => ?_, ?_, ?_, ?_⟩
    · rintro rfl
      simp [covers] at h
    all_goals simp [State.setAny]
  | wide w =>
    refine ⟨fun r h => setWide_getByte_other s v h, fun h => setWide_sp_other s v ?_, ?_, ?_, ?_⟩
    · rintro rfl
      exact h rfl
    all_goals simp [State.setAny]

/-- A byte register takes the low byte of a word, so a byte can be handed to `setAny` as a word. -/
theorem setAny_byte (s : State) (r : ByteReg) (v : Byte) :
    s.setAny (.byte r) (v.setWidth 16) = s.setByte r v := by
  have : low (v.setWidth 16) = v := by
    apply BitVec.eq_of_toNat_eq
    have := v.isLt
    simp only [low, BitVec.extractLsb'_toNat, BitVec.toNat_setWidth, Nat.shiftRight_zero]
    omega
  simp [State.setAny, this]

theorem loadInto_gives (q : AnyReg) (a : Word) (s : State) :
    Gives (loadInto q a) s (fun _ t => ∃ v, t = s.setAny q v) (FetchFault s) := by
  cases q with
  | byte r =>
    refine gives_bind (memRead8_gives a s) fun v t ht => ?_
    subst ht
    exact gives_ok (writeByte_apply r v t) ⟨v.setWidth 16, (setAny_byte t r v).symm⟩
  | wide w =>
    refine gives_bind (memRead16_gives a s) fun v t ht => ?_
    subst ht
    exact gives_ok (writeWide_apply w v t) ⟨v, rfl⟩

/-- The second half of MOV_REG_REG: the destination is of the source's width. -/
theorem copyFrom_gives (q : AnyReg) (dst : RegCode) (s : State) :
    Gives (copyFrom q dst) s
      (fun _ t => ∃ p u v, SameButPc s u ∧ t = u.setAny p v ∧
        ((∃ r, q = .byte r ∧ (s.cfg.regCodes.byteOf dst).map AnyReg.byte = some p) ∨
          ∃ w, q = .wide w ∧ (s.cfg.regCodes.wideOf dst).map AnyReg.wide = some p))
      (FetchFault s) := by
  cases q with
  | byte r =>
    refine gives_bind (operandByteReg_gives dst s) fun rd u hu => ?_
    refine gives_ok (v := ()) (t := u.setByte rd (u.getByte r)) (by simp) ?_
    exact ⟨.byte rd, u, (u.getByte r).setWidth 16, hu.2, (setAny_byte u rd _).symm,
      .inl ⟨r, rfl, by simp [hu.1]⟩⟩
  | wide w =>
    refine gives_bind (operandWideReg_gives dst s) fun wd u hu => ?_
    refine gives_ok (v := ()) (t := u.setWide wd (u.getWide w)) (by simp) ?_
    exact ⟨.wide wd, u, u.getWide w, hu.2, rfl, .inr ⟨w, rfl, by simp [hu.1]⟩⟩

/-- A byte store writes the byte its address reaches, or changes nothing. -/
theorem memWrite8_gives (a : Word) (v : Byte) (s : State) :
    Gives (memWrite8 a v) s (fun _ t => ∃ x, s.route a = .ok x ∧ t = s.setSlot x v) (FetchFault s) := by
  cases h : s.route a with
  | ok x => exact gives_ok (memWrite8_ok h v) ⟨x, rfl, rfl⟩
  | error c => exact gives_error (memWrite8_error h v) ⟨.refl s, c, rfl, route_ofStep h⟩

/-- A word store writes its two bytes, or only the first, or nothing. -/
theorem memWrite16_gives (a v : Word) (s : State) :
    Gives (memWrite16 a v) s
      (fun _ t => ∃ x y, s.WordAt a x y ∧ t = (s.setSlot x (high v)).setSlot y (low v))
      (fun c t => FetchFault s c t ∨ ∃ x e, s.route a = .ok x ∧ s.secondByteFault a = some e ∧
        c = .fault e ∧ t = s.setSlot x (high v)) := by
  rcases word_cases s a with ⟨c, h⟩ | ⟨x, c, hx, h⟩ | ⟨x, y, h⟩
  · exact gives_error (memWrite16_first h v) (.inl ⟨.refl s, c, rfl, route_ofStep h⟩)
  · exact gives_error (memWrite16_second hx h v) (.inr ⟨x, c, hx, h, rfl, rfl⟩)
  · exact gives_ok (memWrite16_ok h v) ⟨x, y, h, rfl⟩

end Sys2Proof.Machine
end

