-- ==== Sys2Proof/Laws/Exec.lean ====
section
/-!
SUPPORT. Everything an instruction can do, said once for all of them: `exec_cases`.
-/

namespace Sys2Proof.Machine

/-- What an instruction that completes leaves as it was. -/
structure ExecFrame (i : Instr) (s t : State) : Prop where
  byteRegs : ∀ r, (∀ q, destination s.cfg.regCodes i = some q → covers q r = false) →
    t.getByte r = s.getByte r
  sp : destination s.cfg.regCodes i ≠ some (.wide .sp) → t.sp = s.sp
  status : t.status = s.status
  memory : ∀ x, (∀ a ∈ storeAddresses s.cfg.regCodes i, s.route a ≠ .ok x) →
    t.slotByte x = s.slotByte x
  route : ∀ a, t.route a = s.route a
  cfg : t.cfg = s.cfg
  lengths : t.devices.map Device.len = s.devices.map Device.len
  canonical : Memory.wf s.devices = true → Memory.wf t.devices = true

theorem SameButPc.execFrame {i : Instr} {s t : State} (h : SameButPc s t) : ExecFrame i s t where
  byteRegs r _ := h.getByte r
  sp _ := h.sp
  status := h.status
  memory x _ := h.slotByte x
  route := h.route
  cfg := h.cfg
  lengths := by rw [h.devices]
  canonical := by
    rw [h.devices]
    exact id

/-- Writing the destination stays inside the frame. -/
theorem execFrame_setAny {i : Instr} {s u : State} {q : AnyReg} {v : Word} (h : SameButPc s u)
    (hd : destination s.cfg.regCodes i = some q) : ExecFrame i s (u.setAny q v) := by
  obtain ⟨hr, hs, hst, hdev, hc⟩ := setAny_frame u q v
  exact {
    byteRegs := fun r h' => (hr r (h' q hd)).trans (h.getByte r)
    sp := fun h' => (hs fun e => h' (e ▸ hd)).trans h.sp
    status := hst.trans h.status
    memory := fun x _ => (slotByte_congr hdev x).trans (h.slotByte x)
    route := fun a => (route_congr hc (hasByte_congr hdev) a).trans (h.route a)
    cfg := hc.trans h.cfg
    lengths := by rw [hdev, h.devices]
    canonical := by
      rw [hdev, h.devices]
      exact id }

/-- A write changes no device's length. -/
theorem setSlot_lengths (s : State) (x : Slot) (v : Byte) :
    (s.setSlot x v).devices.map Device.len = s.devices.map Device.len := by
  apply List.ext_getElem?
  intro n
  simp only [State.setSlot, List.getElem?_map, List.getElem?_modify]
  cases s.devices[n]? with
  | none => rfl
  | some dev =>
    simp only [Option.map_eq_map, Option.map_some]
    split <;> rfl

/-- Writing a byte that a store address reaches stays inside the frame. -/
theorem execFrame_setSlot {i : Instr} {s u : State} {x : Slot} {v : Byte} (h : ExecFrame i s u)
    (hx : ∃ a ∈ storeAddresses s.cfg.regCodes i, s.route a = .ok x) : ExecFrame i s (u.setSlot x v) := by
  obtain ⟨a, ha, hr⟩ := hx
  exact {
    byteRegs := fun r h' => (setSlot_getByte u r v x).trans (h.byteRegs r h')
    sp := h.sp
    status := h.status
    memory := fun y hy =>
      (setSlot_slotByte_other u v (by rintro rfl; exact hy a ha hr)).trans (h.memory y hy)
    route := fun b => (setSlot_route u x v b).trans (h.route b)
    cfg := h.cfg
    lengths := (setSlot_lengths u x v).trans h.lengths
    canonical := fun hw =>
      setSlot_memory_wf (h.canonical hw) v (hasByte_of_route ((h.route a).trans hr)) }

/-- How an instruction that stops with a fault leaves the machine: like a failed fetch, or with the first byte of a
word store written (R203). -/
def ExecFault (i : Instr) (s : State) (c : Condition) (t : State) : Prop :=
  FetchFault s c t ∨
  ∃ a x u v e, storeAddresses s.cfg.regCodes i = [a, a + 1#16] ∧ s.route a = .ok x ∧
    s.secondByteFault a = some e ∧ c = .fault e ∧ SameButPc s u ∧ t = u.setSlot x v

theorem ExecFault.frame {i : Instr} {s t : State} {c : Condition} (h : ExecFault i s c t) :
    ExecFrame i s t := by
  rcases h with h | ⟨a, x, u, v, e, ha, hx, -, -, hu, rfl⟩
  · exact h.1.execFrame
  · exact execFrame_setSlot hu.execFrame ⟨a, by simp [ha], hx⟩

theorem ExecFault.stepFault {i : Instr} {s t : State} {c : Condition} (h : ExecFault i s c t) :
    StepFault c := by
  rcases h with h | ⟨a, x, u, v, e, -, -, he, rfl, -, -⟩
  · exact h.2
  · exact ⟨e, rfl, secondByteFault_ofStep he⟩

/-! ### Lines of an instruction, run from a state that differs from `s` in PC only -/

section Lines
variable {i : Instr} {s t : State}

/-- A line that fails like a fetch, followed by the rest of the instruction. -/
theorem execLine {α β : Type} {m : M α} {f : α → M β} {P : α → State → Prop} {Q : β → State → Prop}
    (h : SameButPc s t) (hm : Gives m t P (FetchFault t))
    (hf : ∀ v u, P v u → Gives (f v) u Q (ExecFault i s)) : Gives (m >>= f) t Q (ExecFault i s) :=
  gives_bind (gives_mono hm (fun _ _ h => h) fun _ _ h' => .inl (h'.after h)) hf

/-- Reading a register for the rest of the instruction. -/
theorem execRead {β : Type} {w : WideReg} {f : Word → M β} {Q : β → State → Prop}
    (hf : Gives (f (t.getWide w)) t Q (ExecFault i s)) :
    Gives (readWide w >>= f) t Q (ExecFault i s) :=
  gives_bind (P := fun v u => v = t.getWide w ∧ u = t) (gives_ok (readWide_apply w t) ⟨rfl, rfl⟩)
    (by rintro v u ⟨rfl, rfl⟩; exact hf)

theorem execLoad {q : AnyReg} {a : Word} (h : SameButPc s t)
    (hd : destination s.cfg.regCodes i = some q) :
    Gives (loadInto q a) t (fun _ u => ExecFrame i s u) (ExecFault i s) := by
  refine gives_mono (loadInto_gives q a t) ?_ fun _ _ h' => .inl (h'.after h)
  rintro _ _ ⟨v, rfl⟩
  exact execFrame_setAny h hd

theorem execStore8 {a : Word} {v : Byte} (h : SameButPc s t)
    (ha : a ∈ storeAddresses s.cfg.regCodes i) :
    Gives (memWrite8 a v) t (fun _ u => ExecFrame i s u) (ExecFault i s) := by
  refine gives_mono (memWrite8_gives a v t) ?_ fun _ _ h' => .inl (h'.after h)
  rintro _ _ ⟨x, hx, rfl⟩
  exact execFrame_setSlot h.execFrame ⟨a, ha, (h.route a).symm.trans hx⟩

theorem execStore16 {a v : Word} (h : SameButPc s t)
    (ha : storeAddresses s.cfg.regCodes i = [a, a + 1#16]) :
    Gives (memWrite16 a v) t (fun _ u => ExecFrame i s u) (ExecFault i s) := by
  refine gives_mono (memWrite16_gives a v t) ?_ ?_
  · rintro _ _ ⟨x, y, hw, rfl⟩
    exact execFrame_setSlot
      (execFrame_setSlot h.execFrame ⟨a, by simp [ha], (h.route a).symm.trans hw.1⟩)
      ⟨a + 1#16, by simp [ha], (h.route _).symm.trans hw.2.2⟩
  · rintro c u (h' | ⟨x, e, hx, he, hc, hu⟩)
    · exact .inl (h'.after h)
    · exact .inr ⟨a, x, t, high v, e, ha, (h.route a).symm.trans hx,
        (h.secondByteFault a).symm.trans he, hc, h, hu⟩

end Lines

/-- Every instruction but HLT either completes inside its frame or raises a fault. -/
theorem exec_gives (i : Instr) (hi : i ≠ .hlt) (s : State) :
    ∃ m : M Unit, exec i s = conclude (m s) ∧
      Gives m s (fun _ t => ExecFrame i s t) (ExecFault i s) := by
  cases i with
  | hlt => exact absurd rfl hi
  | nop => exact ⟨(pure () : M Unit), rfl, gives_ok (m_pure () s) (SameButPc.refl s).execFrame⟩
  | movLitReg imm dst =>
    refine ⟨_, rfl, execLine (.refl s) (operand8_gives imm s) ?_⟩
    rintro v t ⟨-, ht⟩
    refine execLine ht (operandByteReg_gives dst t) ?_
    rintro r u ⟨hr, hu⟩
    rw [ht.cfg] at hr
    refine gives_ok (writeByte_apply r v u) ?_
    rw [← setAny_byte]
    exact execFrame_setAny (ht.trans hu) (by simp [destination, hr])
  | movLitRegWide imm dst =>
    refine ⟨_, rfl, execLine (.refl s) (operand16_gives imm s) ?_⟩
    rintro v t ⟨-, ht⟩
    refine execLine ht (operandWideReg_gives dst t) ?_
    rintro w u ⟨hw, hu⟩
    rw [ht.cfg] at hw
    exact gives_ok (writeWide_apply w v u)
      (execFrame_setAny (q := .wide w) (ht.trans hu) (by simp [destination, hw]))
  | movRegReg src dst =>
    refine ⟨_, rfl, execLine (.refl s) (operandAnyReg_gives src s) ?_⟩
    rintro q t ⟨hq, ht⟩
    refine gives_mono (copyFrom_gives q dst t) ?_ fun _ _ h' => .inl (h'.after ht)
    rintro _ _ ⟨p, u, v, hu, rfl, hp⟩
    rw [ht.cfg] at hp
    refine execFrame_setAny (ht.trans hu) ?_
    rcases hp with ⟨r, rfl, hp⟩ | ⟨w, rfl, hp⟩ <;> simp only [destination, hq, hp]
  | movRegMem src addr =>
    refine ⟨_, rfl, execLine (.refl s) (operandAnyReg_gives src s) ?_⟩
    rintro q t ⟨hq, ht⟩
    refine execLine ht (operand16_gives addr t) ?_
    rintro a u ⟨ha, hu⟩
    rw [ha]
    cases q with
    | byte r =>
      refine gives_bind (P := fun _ w => w = u) (gives_ok (readByte_apply r u) rfl) ?_
      rintro v _ rfl
      exact execStore8 (ht.trans hu) (by simp [storeAddresses, hq])
    | wide w => exact execRead (execStore16 (ht.trans hu) (by simp [storeAddresses, hq]))
  | movMemReg addr dst =>
    refine ⟨_, rfl, execLine (.refl s) (operand16_gives addr s) ?_⟩
    rintro a t ⟨-, ht⟩
    refine execLine ht (operandAnyReg_gives dst t) ?_
    rintro q u ⟨hq, hu⟩
    rw [ht.cfg] at hq
    exact execLoad (ht.trans hu) hq
  | movLitMem imm addr =>
    refine ⟨_, rfl, execLine (.refl s) (operand8_gives imm s) ?_⟩
    rintro v t ⟨-, ht⟩
    refine execLine ht (operand16_gives addr t) ?_
    rintro a u ⟨ha, hu⟩
    rw [ha]
    exact execStore8 (ht.trans hu) (by simp [storeAddresses])
  | movLitMemWide imm addr =>
    refine ⟨_, rfl, execLine (.refl s) (operand16_gives imm s) ?_⟩
    rintro v t ⟨-, ht⟩
    refine execLine ht (operand16_gives addr t) ?_
    rintro a u ⟨ha, hu⟩
    rw [ha]
    exact execStore16 (ht.trans hu) (by simp [storeAddresses])
  | movRegPtrReg ptr dst =>
    refine ⟨_, rfl, execLine (.refl s) (operandWideReg_gives ptr s) ?_⟩
    rintro p t ⟨-, ht⟩
    refine execRead (execLine ht (operandAnyReg_gives dst t) ?_)
    rintro q u ⟨hq, hu⟩
    rw [ht.cfg] at hq
    exact execLoad (ht.trans hu) hq
  | movLitOffReg base off dst =>
    refine ⟨_, rfl, execLine (.refl s) (operand16_gives base s) ?_⟩
    rintro b t ⟨-, ht⟩
    refine execLine ht (operandWideReg_gives off t) ?_
    rintro o u ⟨-, hu⟩
    refine execRead (execLine (ht.trans hu) (operandAnyReg_gives dst u) ?_)
    rintro q w ⟨hq, hw⟩
    rw [hu.cfg, ht.cfg] at hq
    exact execLoad ((ht.trans hu).trans hw) hq

/-- Inversion: an instruction but HLT that answers a next state has completed inside its frame or has stopped with a
fault. -/
theorem exec_cases {i : Instr} (hi : i ≠ .hlt) {s t : State} (h : exec i s = .next t) :
    ExecFrame i s t ∨
    ∃ e u, e.ofStep = true ∧ ExecFault i s (.fault e) u ∧ t = u.stopWith (.fault e) := by
  obtain ⟨m, hm, hg⟩ := exec_gives i hi s
  rw [hm] at h
  rcases conclude_gives hg h with h | ⟨c, u, hc, rfl⟩
  · exact .inl h
  · obtain ⟨e, rfl, he⟩ := hc.stepFault
    exact .inr ⟨e, u, he, hc, rfl⟩

/-- HLT answers with the status Halted. -/
theorem exec_hlt (s : State) : exec .hlt s = .next (s.stopWith .halt) := rfl

/-- Inversion of a step of a running engine: the opcode fetch failed, or the instruction it fetched ran. -/
theorem step_cases {s t : State} (hs : s.status = .running) (h : step s = .next t) :
    (∃ e u, e.ofStep = true ∧ SameButPc s u ∧ fetch8 s = .error (.fault e) u ∧
      t = u.stopWith (.fault e)) ∨
    (s.canFetch 1 = true ∧ exec ((s.advance 1).instrAt (s.peek s.pc)) (s.advance 1) = .next t) := by
  have hg := fetch8_gives s
  simp only [step, hs] at h
  cases hf : fetch8 s with
  | error c u =>
    rw [hf] at h
    simp only [Gives, hf] at hg
    obtain ⟨hu, e, rfl, he⟩ := hg
    exact .inl ⟨e, u, he, hu, rfl, by simpa using h.symm⟩
  | ok op u =>
    rw [hf] at h
    simp only [Gives, hf] at hg
    obtain ⟨rfl, rfl⟩ := hg
    refine .inr ⟨?_, h⟩
    rcases fetch8_cases s with ⟨hc, -⟩ | ⟨-, h'⟩ | ⟨c, -, h'⟩
    · exact hc
    all_goals
      rw [h'] at hf
      simp at hf

end Sys2Proof.Machine
end

