-- ==== Sys2Proof/Laws/PerInstr.lean ====
section
/-!
SUPPORT. Statements about every instruction as syntax, one lemma per constructor.
-/

namespace Sys2Proof.Laws.EncodeSize

/-- The encoding has as many bytes as R106 gives the instruction. -/
def Statement (i : Instr) : Prop := (encode i).length = i.size

theorem nop : Statement .nop := rfl
theorem movLitReg (imm : Byte) (dst : RegCode) : Statement (.movLitReg imm dst) := rfl
theorem movLitRegWide (imm : Word) (dst : RegCode) : Statement (.movLitRegWide imm dst) := rfl
theorem movRegReg (src dst : RegCode) : Statement (.movRegReg src dst) := rfl
theorem movRegMem (src : RegCode) (addr : Word) : Statement (.movRegMem src addr) := rfl
theorem movMemReg (addr : Word) (dst : RegCode) : Statement (.movMemReg addr dst) := rfl
theorem movLitMem (imm : Byte) (addr : Word) : Statement (.movLitMem imm addr) := rfl
theorem movLitMemWide (imm addr : Word) : Statement (.movLitMemWide imm addr) := rfl
theorem movRegPtrReg (ptr dst : RegCode) : Statement (.movRegPtrReg ptr dst) := rfl
theorem movLitOffReg (base : Word) (off dst : RegCode) : Statement (.movLitOffReg base off dst) := rfl
theorem hlt : Statement .hlt := rfl

end Sys2Proof.Laws.EncodeSize
end

