-- ==== Sys2Proof/Tests/Slice0.lean ====
section
/-!
SUPPORT. Tests. Expected results come from spec/: the vectors of 95_test_vectors.md (named by their id), the tables of
30_encoding.md, or the rule named. The theorems `witness_…` show states and operands that meet the hypotheses of the
statements in Certificates/Slice0/Obligations.lean, at the ends of their ranges.
-/

namespace Sys2Proof.Tests

open Sys2Proof.Machine

/-! ### Helpers -/

/-- Platform FULL after reset, with these bytes from address 0. -/
def load (bytes : List Byte) : State := { State.reset with devices := [⟨65536, cellsOf 0 bytes⟩] }

/-- The state in which the instruction at 0 executes: its opcode byte has been fetched. -/
def fetched (bytes : List Byte) : State := (load bytes).advance 1

/-- A device of these bytes only, mapped from `start` on. -/
def small (start : Word) (bytes : List Byte) : State :=
  { State.reset with
    pc := start
    devices := [deviceOf bytes]
    cfg := { fullBus with regions := [⟨start, start + BitVec.ofNat 16 (bytes.length - 1), 0⟩] } }

/-- A test on the next state of a step. -/
def after (s : State) (p : State → Bool) : Bool :=
  match step s with
  | .next t => p t
  | .fault _ => false
  | .refused _ => false

/-! ### Well-formedness: each check refuses an ill-formed term -/

theorem test_wf_accepts : (Instr.movRegReg 0xA0 0xF1).wf defaultRegCodes = true ∧
    (Instr.movLitOffReg 0x10 0xF0 0x08).wf defaultRegCodes = true := by decide
theorem test_wf_refuses_wide_code_for_byte : (Instr.movLitReg 0 0xA0).wf defaultRegCodes = false := by decide
theorem test_wf_refuses_byte_code_for_wide : (Instr.movLitRegWide 0 0x01).wf defaultRegCodes = false := by decide
theorem test_wf_refuses_unnamed_code : (Instr.movRegMem 0x09 0).wf defaultRegCodes = false ∧
    (Instr.movMemReg 0 0x00).wf defaultRegCodes = false := by decide
theorem test_wf_refuses_mixed_widths : (Instr.movRegReg 0x01 0xA0).wf defaultRegCodes = false ∧
    (Instr.movRegReg 0xA0 0x01).wf defaultRegCodes = false ∧
    (Instr.movRegReg 0x00 0x01).wf defaultRegCodes = false := by decide
theorem test_wf_refuses_byte_pointer : (Instr.movRegPtrReg 0x01 0x01).wf defaultRegCodes = false ∧
    (Instr.movRegPtrReg 0xA0 0xA4).wf defaultRegCodes = false := by decide
theorem test_wf_refuses_byte_offset : (Instr.movLitOffReg 0 0x01 0x01).wf defaultRegCodes = false ∧
    (Instr.movLitOffReg 0 0xA0 0xF2).wf defaultRegCodes = false := by decide
theorem test_config_wf : fullBus.wf 1 = true ∧ emptyBus.wf 0 = false := by decide
theorem test_config_refuses_reversed_region : regionsOrdered [⟨5, 4, 0⟩] = false ∧
    regionsOrdered [⟨5, 5, 0⟩] = true := by decide
theorem test_config_refuses_shared_or_missing_device :
    devicesBoundOnce 1 [⟨0, 4, 0⟩, ⟨8, 9, 0⟩] = false ∧ devicesBoundOnce 1 [⟨0, 4, 1⟩] = false := by decide
theorem test_config_refuses_unbound_device : devicesBoundOnce 2 [⟨0, 4, 0⟩] = false ∧
    devicesBoundOnce 2 [⟨0, 4, 1⟩, ⟨8, 9, 0⟩] = true := by decide
theorem test_config_refuses_ambiguous_codes :
    RegCodes.wf ⟨[(1, .a)], [(1, .ab)]⟩ = false ∧ RegCodes.wf ⟨[(1, .a), (2, .a)], []⟩ = false ∧
    RegCodes.wf ⟨[], [(1, .pc), (2, .pc)]⟩ = false ∧ defaultRegCodes.wf = true := by decide

/-! ### Decoding: words written out from the formats of R103, opcode bytes of R110 -/

theorem test_decode_nop : decode [0b00000000, 0x01] = .ok (.nop, [0x01]) := rfl
theorem test_decode_hlt : decode [0b11111111] = .ok (.hlt, []) := rfl
theorem test_decode_movLitReg :
    decode [0b00010000, 0b10101011, 0b00000011] = .ok (.movLitReg 0xAB 0x03, []) := rfl
theorem test_decode_movLitRegWide :
    decode [0b00010001, 0b00010010, 0b00110100, 0b10100000] = .ok (.movLitRegWide 0x1234 0xA0, []) := rfl
theorem test_decode_movRegReg :
    decode [0b00010010, 0b00000001, 0b00000011] = .ok (.movRegReg 0x01 0x03, []) := rfl
theorem test_decode_movRegMem :
    decode [0b00010011, 0b10100010, 0b00000001, 0b00000010] = .ok (.movRegMem 0xA2 0x0102, []) := rfl
theorem test_decode_movMemReg :
    decode [0b00010100, 0b00000001, 0b00000010, 0b10100001] = .ok (.movMemReg 0x0102 0xA1, []) := rfl
theorem test_decode_movLitMem :
    decode [0b00010101, 0b01111111, 0b00000010, 0b00000011] = .ok (.movLitMem 0x7F 0x0203, []) := rfl
theorem test_decode_movLitMemWide : decode [0b00010110, 0b10111110, 0b11101111, 0b00000010, 0b00000011] =
    .ok (.movLitMemWide 0xBEEF 0x0203, []) := rfl
theorem test_decode_movRegPtrReg :
    decode [0b00010111, 0b10100001, 0b10100010] = .ok (.movRegPtrReg 0xA1 0xA2, []) := rfl
theorem test_decode_movLitOffReg : decode [0b00011000, 0b00000010, 0b00000001, 0b10100011, 0b00001000] =
    .ok (.movLitOffReg 0x0201 0xA3 0x08, []) := rfl
theorem test_decode_unassigned : decode [0x99, 0x10] = .ok (.nop, [0x10]) ∧
    decode [0x0F] = .ok (.nop, []) ∧ decode [0x19] = .ok (.nop, []) ∧ decode [0xFE] = .ok (.nop, []) :=
  ⟨rfl, rfl, rfl, rfl⟩
theorem test_decode_rejects : decode [] = .error .noBytes ∧ decode [0x10, 0xAB] = .error (.truncated 0x10) ∧
    decode [0x18, 1, 2, 3] = .error (.truncated 0x18) := ⟨rfl, rfl, rfl⟩
theorem test_encode_bytes : encode (.movLitOffReg 0x0201 0xA3 0x08) = [0x18, 0x02, 0x01, 0xA3, 0x08] ∧
    encode (.movRegMem 0xA2 0x0102) = [0x13, 0xA2, 0x01, 0x02] := by decide
/-- A table word: the opcode is its low byte, the operand bytes follow; operand bytes not given are 0. -/
theorem test_table_word : decodeTableWord 8 0x17 = some (.movRegPtrReg 0x00 0x00) ∧
    decodeTableWord 32 0xA0341211 = some (.movLitRegWide 0x1234 0xA0) := by decide
theorem test_fetch_word_runs :
    after (State.reset.withFetchWord 32 0xA0341211) (fun t => t.a == 0x12 && t.b == 0x34 && t.pc == 4) = true := by
  decide

/-! ### One step each -/

/-- VN6. -/
theorem test_unassigned_is_nop : after (load [0x99, 0x10, 0xAB, 0x01])
    (fun t => t.pc == 1 && t.a == 0 && t.status == .running) = true := by decide
/-- VZ1. -/
theorem test_hlt : after (load [0xFF]) (fun t => t.pc == 1 && t.status == .halted) = true := by decide
/-- VL1. -/
theorem test_movLitReg : after (load [0x10, 0xAB, 0x03]) (fun t => t.c == 0xAB && t.pc == 3) = true := by decide
/-- VL5. -/
theorem test_movLitReg_wide_code : after (load [0x10, 0xAB, 0xA0])
    (fun t => t.status == .faulted (.invalidRegister 0xA0) && t.pc == 3 && t.a == 0) = true := by decide
/-- VW1. -/
theorem test_movLitRegWide : after (load [0x11, 0x12, 0x34, 0xA0])
    (fun t => t.a == 0x12 && t.b == 0x34 && t.pc == 4) = true := by decide
/-- VW3. -/
theorem test_movLitRegWide_jump : after (load [0x11, 0x00, 0x40, 0xF0]) (fun t => t.pc == 0x40) = true := by decide
/-- VY6: PC as source is read after both fetches. -/
theorem test_movRegReg_pc : after (load [0x12, 0xF0, 0xA1])
    (fun t => t.c == 0 && t.d == 3 && t.pc == 3) = true := by decide
/-- VY9: the destination byte is not fetched. -/
theorem test_movRegReg_lazy : after (load [0x12, 0x00, 0x01])
    (fun t => t.status == .faulted (.invalidRegister 0x00) && t.pc == 2) = true := by decide
/-- VS2. -/
theorem test_movRegMem_word : after { load [0x13, 0xA2, 0x01, 0x01] with e := 0xBE, f := 0xEF }
    (fun t => t.slotByte ⟨0, 0x101⟩ == 0xBE && t.slotByte ⟨0, 0x102⟩ == 0xEF && t.pc == 4) = true := by decide
/-- VS4: the first byte stays written. -/
theorem test_movRegMem_overflow : after { load [0x13, 0xA0, 0xFF, 0xFF] with a := 0x12, b := 0x34 }
    (fun t => t.status == .faulted (.addressOverflow 0xFFFF) && t.slotByte ⟨0, 0xFFFF⟩ == 0x12 &&
      t.pc == 4) = true := by decide
/-- VM6: reads its own last byte and the byte after it. -/
theorem test_movMemReg_word : after (load [0x14, 0x00, 0x03, 0xA0])
    (fun t => t.a == 0xA0 && t.b == 0 && t.pc == 4) = true := by decide
/-- VM4: the destination is not written. -/
theorem test_movMemReg_overflow : after { load [0x14, 0xFF, 0xFF, 0xA0] with a := 0x09, b := 0x09 }
    (fun t => t.status == .faulted (.addressOverflow 0xFFFF) && t.a == 0x09 && t.b == 0x09) = true := by decide
/-- VB4: overwrites its own opcode. -/
theorem test_movLitMem : after (load [0x15, 0xFF, 0x00, 0x00])
    (fun t => t.slotByte ⟨0, 0⟩ == 0xFF && t.pc == 4) = true := by decide
/-- VQ1. -/
theorem test_movLitMemWide : after (load [0x16, 0xBE, 0xEF, 0x02, 0x00])
    (fun t => t.slotByte ⟨0, 0x200⟩ == 0xBE && t.slotByte ⟨0, 0x201⟩ == 0xEF && t.pc == 5) = true := by decide
/-- VQ4: with wrap16 the second byte goes to address 0. -/
theorem test_movLitMemWide_wrap :
    after { load [0x16, 0x12, 0x34, 0xFF, 0xFF] with cfg := { fullBus with wrap16 := true } }
      (fun t => t.slotByte ⟨0, 0xFFFF⟩ == 0x12 && t.slotByte ⟨0, 0⟩ == 0x34 && t.pc == 5) = true := by decide
/-- VT5: a pointer of PC is the address of the destination byte. -/
theorem test_movRegPtrReg_pc : after (load [0x17, 0xF0, 0xA0])
    (fun t => t.a == 0xA0 && t.b == 0 && t.pc == 3) = true := by decide
/-- VT6. -/
theorem test_movRegPtrReg_byte_pointer : after (load [0x17, 0x01, 0x01])
    (fun t => t.status == .faulted (.invalidRegister 0x01) && t.pc == 2) = true := by decide
/-- VO4: an offset of PC is read after the offset fetch. -/
theorem test_movLitOffReg_pc : after (load [0x18, 0x00, 0x00, 0xF0, 0x01])
    (fun t => t.a == 0x01 && t.pc == 5) = true := by decide
/-- VO2: the sum wraps (the loaded byte is the one at 0x0010). -/
theorem test_movLitOffReg_wrap : after { load ([0x18, 0xFF, 0xFF, 0xA3, 0x01] ++ List.replicate 11 0 ++ [0x5A])
    with h := 0x11 } (fun t => t.a == 0x5A && t.pc == 5) = true := by decide
/-- VF2 (VE10): the second byte of a word fetch fails, PC has moved by 2. -/
theorem test_word_fetch_second_byte : after (small 0 [0x11, 0x12])
    (fun t => t.status == .faulted (.outOfBounds 2) && t.pc == 3) = true := by decide
/-- P8: at 0xFFFF the fetch overflows before it reads. -/
theorem test_fetch_at_top : after { small 0xFFFE [0x00, 0xFF] with pc := 0xFFFF }
    (fun t => t.status == .faulted (.addressOverflow 0xFFFF) && t.pc == 0xFFFF) = true := by decide
/-- R61: the last byte of a device is inside it, the next is not; the failure carries the device-relative address. -/
theorem test_device_bound : State.route { small 0 [7, 8] with cfg := fullBus } 1 = .ok ⟨0, 1⟩ ∧
    State.route { small 0 [7, 8] with cfg := fullBus } 2 = .error (.outOfBounds 2) := ⟨rfl, rfl⟩

/-! ### Witnesses for the statements' hypotheses -/

/-- X at [0,10], then Y at [5,15] (VE4): the later region comes first. -/
def overlapping : State :=
  { State.reset with
    devices := [deviceOf (List.replicate 11 1), deviceOf (List.replicate 11 2)]
    cfg := addRegion (addRegion emptyBus 0 10 0) 5 15 1 }

theorem witness_BusMiss : (∀ r ∈ overlapping.cfg.regions, ¬ (r.start ≤ (16 : Word) ∧ (16 : Word) ≤ r.stop)) ∧
    busEnd overlapping.cfg.regions = some 15 ∧ (15 : Word) < 16 ∧
    busStart (small 0x10 [0, 0]).cfg.regions = some 0x10 ∧ (0x0F : Word) < 0x10 := by decide
theorem witness_LaterRegion : overlapping.cfg = addRegion (addRegion emptyBus 0 10 0) 5 15 1 ∧
    overlapping.route 5 = .ok ⟨1, 0⟩ ∧ overlapping.route 15 = .ok ⟨1, 10⟩ ∧
    overlapping.route 4 = .ok ⟨0, 4⟩ ∧
    memWrite8 7 0x33 overlapping = .ok () (overlapping.setSlot ⟨1, 2⟩ 0x33) := ⟨rfl, rfl, rfl, rfl, rfl⟩
theorem witness_DeviceBounds :
    lookup fullBus.regions 1 = some ⟨0, 0xFFFF, 0⟩ ∧ lookup fullBus.regions 2 = some ⟨0, 0xFFFF, 0⟩ ∧
    (small 0 [7, 8]).devices[0]? = some (deviceOf [7, 8]) ∧ (deviceOf [7, 8]).len = 2 := ⟨rfl, rfl, rfl, rfl⟩
theorem witness_DeviceWord : devWriteWide 0 0 0x1234 (small 0 [7, 8]) =
      .ok () (((small 0 [7, 8]).setSlot ⟨0, 0⟩ 0x12).setSlot ⟨0, 1⟩ 0x34) ∧
    Memory.wf (small 0 [7, 8]).devices = true := ⟨rfl, by decide⟩
theorem witness_WrittenByte : Memory.wf (load []).devices = true ∧
    memWrite8 0xFFFF 0x12 (load []) = .ok () ((load []).setSlot ⟨0, 0xFFFF⟩ 0x12) ∧
    (load []).route 0xFFFE = .ok ⟨0, 0xFFFE⟩ ∧ (load []).route 0xFFFF = .ok ⟨0, 0xFFFF⟩ := ⟨rfl, rfl, rfl, rfl⟩
theorem load_inv : (load []).Inv := ⟨by decide, by decide, by decide⟩
theorem witness_WrittenWord : (load []).Inv ∧ memWrite16 0xFFFE 0x1234 (load []) =
    .ok () (((load []).setSlot ⟨0, 0xFFFE⟩ 0x12).setSlot ⟨0, 0xFFFF⟩ 0x34) := ⟨load_inv, rfl⟩
theorem witness_FailedWordWrite :
    (load []).route 0xFFFF = .ok ⟨0, 0xFFFF⟩ ∧ (load []).cfg.wrap16 = false ∧
    (small 0 [7, 8]).route 1 = .ok ⟨0, 1⟩ ∧ (small 0 [7, 8]).route 2 = .error (.outOfBounds 2) :=
  ⟨rfl, rfl, rfl, rfl⟩
theorem witness_ByteFetch : ({ load [] with pc := 0xFFFF } : State).cfg.wrap16 = false ∧
    ({ load [] with pc := 0xFFFE } : State).route 0xFFFE = .ok ⟨0, 0xFFFE⟩ ∧
    ({ small 0 [7, 8] with pc := 2 } : State).route 2 = .error (.outOfBounds 2) := ⟨rfl, rfl, rfl⟩
theorem witness_WordFetch : ({ load [] with pc := 0xFFFE } : State).cfg.wrap16 = false ∧
    ({ load [] with pc := 0xFFFD } : State).route 0xFFFD = .ok ⟨0, 0xFFFD⟩ ∧
    ({ load [] with pc := 0xFFFD } : State).route 0xFFFE = .ok ⟨0, 0xFFFE⟩ ∧
    ({ small 0 [7, 8] with pc := 1 } : State).route 1 = .ok ⟨0, 1⟩ ∧
    ({ small 0 [7, 8] with pc := 1 } : State).route 2 = .error (.outOfBounds 2) := ⟨rfl, rfl, rfl, rfl, rfl⟩
theorem witness_StoredByte : memWrite8 (load []).pc 0xFF (load []) = .ok () ((load []).setSlot ⟨0, 0⟩ 0xFF) ∧
    (load []).pc ≠ 0xFFFF := ⟨rfl, by decide⟩
theorem witness_RegisterCodes : defaultRegCodes.wf = true ∧ defaultRegCodes.byteOf 0x08 = some .h ∧
    defaultRegCodes.wideOf 0xF1 = some .sp ∧ defaultRegCodes.anyOf 0x01 = some (.byte .a) := by decide
theorem witness_EncodeOfDecode : decode [0x10, 0xAB, 0x03, 0x99] = .ok (.movLitReg 0xAB 0x03, [0x99]) ∧
    assignedOpcode 0x10 = true ∧ assignedOpcode 0x18 = true ∧ assignedOpcode 0x19 = false := ⟨rfl, rfl, rfl, rfl⟩
theorem witness_Unassigned : fetch8 (load [0xFE]) = .ok 0xFE (fetched [0xFE]) ∧
    fetch8 (load [0x01]) = .ok 0x01 (fetched [0x01]) ∧ (load [0xFE]).status = .running := ⟨rfl, rfl, rfl⟩
theorem witness_StepRuns : (load [0x18, 1, 2, 0xA0, 0x01]).canFetch 1 = true ∧
    decode [0x18, 1, 2, 0xA0, 0x01] = .ok (.movLitOffReg 0x0102 0xA0 0x01, []) ∧
    (load [0x18, 1, 2, 0xA0, 0x01]).peek 4 = 0x01 := ⟨by decide, rfl, by decide⟩
theorem witness_Running : State.reset.status = .running ∧
    ({ State.reset with status := .halted } : State).status ≠ .running := by decide
/-- Each end of a step, for the statements about running steps: going on, halted, faulted. -/
theorem witness_StepEnds : after (load [0x00]) (fun t => t.status == .running) = true ∧
    after (load [0xFF]) (fun t => t.status == .halted) = true ∧
    after (small 0 [0x16, 1, 2, 0, 5, 0]) (fun t => t.status == .faulted (.outOfBounds 6) &&
      t.slotByte ⟨0, 5⟩ != 0) = true := by decide
theorem witness_SpChanges : after (load [0x11, 0x80, 0x00, 0xF1]) (fun t => t.sp == 0x8000) = true := by decide
theorem witness_RunStops : (run 2 (load [0x00, 0xFF])).status ≠ .running := by decide

/-- The operands of the completion statements, each at a state in which its instruction has been fetched. -/
theorem witness_MovLitReg : (fetched [0x10, 0xAB, 0x08]).canFetch 2 = true ∧
    (fetched []).cfg.regCodes.byteOf 0x08 = some .h := by decide
theorem witness_MovLitRegWide : (fetched [0x11, 0x12, 0x34, 0xF1]).canFetch 3 = true ∧
    (fetched []).cfg.regCodes.wideOf 0xF1 = some .sp ∧ (fetched []).cfg.regCodes.wideOf 0xF0 = some .pc ∧
    (fetched []).cfg.regCodes.wideOf 0xA0 = some .ab := by decide
theorem witness_MovRegReg : (fetched []).canFetch 2 = true ∧
    (fetched []).cfg.regCodes.anyOf 0x01 = some (.byte .a) ∧ (fetched []).cfg.regCodes.byteOf 0x08 = some .h ∧
    (fetched []).cfg.regCodes.anyOf 0xF0 = some (.wide .pc) ∧ (fetched []).cfg.regCodes.wideOf 0xF1 = some .sp := by
  decide
/-- For MOV_REG_MEM, MOV_MEM_REG, MOV_LIT_MEM and MOV_LIT_MEM_WIDE: the highest byte address and the highest word. -/
theorem witness_Addresses : (fetched []).canFetch 4 = true ∧ (fetched []).route 0xFFFF = .ok ⟨0, 0xFFFF⟩ ∧
    (fetched []).WordAt 0xFFFE ⟨0, 0xFFFE⟩ ⟨0, 0xFFFF⟩ := ⟨by decide, rfl, rfl, by decide, rfl⟩
theorem witness_MovRegPtrReg : (fetched []).cfg.regCodes.wideOf 0xF1 = some .sp ∧
    (fetched []).route (((fetched []).advance 1).getWide .sp) = .ok ⟨0, 0xFFFF⟩ ∧
    (fetched []).WordAt (((fetched []).advance 1).getWide .pc) ⟨0, 2⟩ ⟨0, 3⟩ := ⟨rfl, rfl, rfl, by decide, rfl⟩
theorem witness_MovLitOffReg : (fetched []).route (offsetAddress 2 (((fetched []).advance 3).getWide .sp)) =
      .ok ⟨0, 1⟩ ∧
    (fetched []).WordAt (offsetAddress 0xFFFA (((fetched []).advance 3).getWide .pc)) ⟨0, 0xFFFE⟩ ⟨0, 0xFFFF⟩ :=
  ⟨rfl, rfl, by decide, rfl⟩
theorem witness_StoredWordLoadsBack : exec (.movRegMem 0xA0 0x0100) (fetched []) =
      .next ((((fetched []).advance 3).setSlot ⟨0, 0x100⟩ 0).setSlot ⟨0, 0x101⟩ 0) ∧
    State.canFetch ((((fetched []).advance 3).setSlot ⟨0, 0x100⟩ 0).setSlot ⟨0, 0x101⟩ 0) 3 = true := ⟨rfl, by decide⟩
theorem witness_InvalidCodes : (fetched []).cfg.regCodes.byteOf 0x09 = none ∧
    (fetched []).cfg.regCodes.byteOf 0xA0 = none ∧ (fetched []).cfg.regCodes.wideOf 0x08 = none ∧
    (fetched []).cfg.regCodes.wideOf 0xA4 = none ∧ (fetched []).cfg.regCodes.anyOf 0x00 = none ∧
    (fetched []).cfg.regCodes.anyOf 0xF2 = none := by decide
theorem witness_FailedOperandFetch : firstOperandBytes (.movLitReg 0 0) = 1 ∧
    firstOperandBytes (.movMemReg 0 0) = 2 ∧
    ({ load [] with pc := 0xFFFF } : State).canInc 0xFFFF 1 = false ∧
    ({ load [] with pc := 0xFFFE } : State).canInc 0xFFFE 2 = false ∧
    ({ small 0 [7, 8] with pc := 2 } : State).route 2 = .error (.outOfBounds 2) ∧
    ({ small 0 [7, 8] with pc := 1 } : State).serves 1 = true ∧
    ({ small 0 [7, 8] with pc := 1 } : State).route 2 = .error (.outOfBounds 2) :=
  ⟨rfl, rfl, rfl, rfl, rfl, rfl, rfl⟩
theorem witness_FailedLoad : State.accessFault (small 0 [0, 0, 0, 0, 0]) (.byte .a) 5 = some (.outOfBounds 5) ∧
    State.accessFault (small 0 [0, 0, 0, 0, 0]) (.wide .ab) 4 = some (.outOfBounds 5) ∧
    (small 0 [0, 0, 0, 0, 0]).canFetch 4 = true ∧
    State.accessFault (load []) (.wide .ab) (((load []).advance 1).getWide .sp) = some (.addressOverflow 0xFFFF) ∧
    State.accessFault (load []) (.wide .ab) (offsetAddress 0 (((load []).advance 3).getWide .sp)) =
      some (.addressOverflow 0xFFFF) := ⟨rfl, rfl, by decide, rfl, rfl⟩
theorem witness_FailedStore : (small 0 [0, 0, 0, 0, 0]).route 5 = .error (.outOfBounds 5) ∧
    (small 0 [0, 0, 0, 0, 0]).route 4 = .ok ⟨0, 4⟩ ∧
    (small 0 [0, 0, 0, 0, 0]).secondByteFault 4 = some (.outOfBounds 5) ∧
    (load []).secondByteFault 0xFFFF = some (.addressOverflow 0xFFFF) := ⟨rfl, rfl, rfl, rfl⟩
/-- For the frames: one instruction of each group answers a next state that goes on. -/
theorem witness_Frames : exec (.movLitReg 5 1) (fetched []) = .next (((fetched []).advance 2).setByte .a 5) ∧
    exec (.movMemReg 0 1) (fetched [9]) = .next (((fetched [9]).advance 3).setByte .a 9) ∧
    exec (.movLitMem 5 0) (fetched []) = .next (((fetched []).advance 3).setSlot ⟨0, 0⟩ 5) := ⟨rfl, rfl, rfl⟩
theorem witness_BusBounds : busStart fullBus.regions = some 0 ∧ busEnd fullBus.regions = some 0xFFFF ∧
    busStart (addRegion (addRegion emptyBus 8 9 0) 2 4 1).regions = some 2 := by decide
theorem witness_Reset : fullBus.wf 1 = true ∧ Memory.wf [deviceOf [1, 0, 2]] = true ∧
    resetOn emptyBus [] = .fault .noMemory ∧
    resetOn { emptyBus with regions := [⟨5, 4, 0⟩] } [deviceOf [1]] = .refused .reversedRegion :=
  ⟨by decide, by decide, rfl, rfl⟩

end Sys2Proof.Tests
end

