-- ==== Sys2Proof/Proofs/Scope.lean ====
section
/-!
PROOFS. The word arithmetic of 00_scope.md: byte split and rejoin (R10), the wrapping sum (R15).
-/

namespace Sys2Proof.Machine

/-- R15: `+w` is the sum modulo 0x10000. -/
theorem offsetAddress_toNat (base offset : Word) :
    (offsetAddress base offset).toNat = (base.toNat + offset.toNat) % 0x10000 :=
  BitVec.toNat_add base offset

/-- Settles O1: the three word equations and the value of a rejoined pair are the laws of the byte split. -/
theorem wordSplitsIntoBytesAndRejoins : Obligations.WordSplitsIntoBytesAndRejoins :=
  ⟨fun v => ⟨high_toNat v, low_toNat v, cat_high_low v⟩, cat_toNat⟩

/-- Settles O41: the address is a 16-bit sum, whose value wraps at 0x10000. -/
theorem offsetSumWraps : Obligations.OffsetSumWraps :=
  offsetAddress_toNat

end Sys2Proof.Machine
end

section
/-!
PROOFS. The wide registers and their halves (R32 to R34), the bus bounds (R45), the reset state (R48, R230 to R232), and
the frames of 10_state.md: what a step or an instruction can change (R36, R39, R43, R44, R46, R47).
-/

namespace Sys2Proof.Machine

/-! ### Registers and their halves (R32 to R34) -/

section Registers
variable (s : State) (r q : ByteReg) (w : WideReg) (b : Byte) (v : Word)

theorem setByte_getByte : (s.setByte r b).getByte q = if q = r then b else s.getByte q := by
  split
  · next h => rw [h, setByte_getByte_same]
  · next h => exact setByte_getByte_other s b h

variable {w} {hi lo : ByteReg}

/-- A composed wide register reads as its halves, high byte first (R33). -/
theorem getWide_of_halves (h : halves w = some (hi, lo)) :
    s.getWide w = cat (s.getByte hi) (s.getByte lo) := by
  cases w <;> cases h <;> rfl

/-- A write to a composed wide register is a write to each of its halves (R33). -/
theorem setWide_of_halves (h : halves w = some (hi, lo)) :
    s.setWide w v = (s.setByte hi (high v)).setByte lo (low v) := by
  cases w <;> cases h <;> rfl

theorem halves_ne (h : halves w = some (hi, lo)) : hi ≠ lo := by
  cases w <;> cases h <;> decide

/-- Only PC and SP have no halves. -/
theorem halves_none (h : halves w = none) : w = .pc ∨ w = .sp := by
  cases w with
  | pc => exact .inl rfl
  | sp => exact .inr rfl
  | ab | cd | ef | gh => cases h

/-- No byte register is a half of two wide registers. -/
theorem covers_other_half {u : WideReg} (hu : halves u = some (hi, lo)) (h : u ≠ w) :
    covers (.wide w) hi = false ∧ covers (.wide w) lo = false := by
  revert h
  cases u <;> cases hu <;> cases w <;> decide

/-- A wide register reads back what was written to it. -/
theorem setWide_getWide_same (w : WideReg) : (s.setWide w v).getWide w = v := by
  cases w with
  | pc | sp => rfl
  | ab | cd | ef | gh => exact cat_high_low v

/-- Writing a wide register other than PC leaves PC alone. -/
theorem setWide_pc_other (h : w ≠ .pc) : (s.setWide w v).pc = s.pc := by
  cases w with
  | pc => exact absurd rfl h
  | ab | cd | ef | gh | sp => rfl

/-- Writing a wide register leaves every other wide register alone: they share no half. -/
theorem setWide_getWide_other {u : WideReg} (h : u ≠ w) : (s.setWide w v).getWide u = s.getWide u := by
  cases hu : halves u with
  | some p =>
    obtain ⟨hhi, hlo⟩ := covers_other_half hu h
    rw [getWide_of_halves _ hu, getWide_of_halves _ hu, setWide_getByte_other s v hhi,
      setWide_getByte_other s v hlo]
  | none =>
    rcases halves_none hu with rfl | rfl
    · exact setWide_pc_other s v h.symm
    · exact setWide_sp_other s v h.symm

/-- PC and SP share no bit with a byte register. -/
theorem setByte_getWide_of_no_halves (h : halves w = none) : (s.setByte r b).getWide w = s.getWide w := by
  rcases halves_none h with rfl | rfl
  · exact setByte_pc s r b
  · exact setByte_sp s r b

/-- The halves of a composed wide register take the high and the low byte, and no other byte register changes. -/
theorem setWide_getByte_of_halves (h : halves w = some (hi, lo)) :
    (s.setWide w v).getByte q = if q = hi then high v else if q = lo then low v else s.getByte q := by
  rw [setWide_of_halves s v h, setByte_getByte, setByte_getByte]
  by_cases hq : q = hi
  · simp [hq, halves_ne h]
  · simp [hq]

/-- PC and SP have no byte register in them. -/
theorem setWide_getByte_of_no_halves (h : halves w = none) : (s.setWide w v).getByte q = s.getByte q :=
  setWide_getByte_other s v (by simp [covers, h])

end Registers

/-- Settles O2: each pair and each cell is the definition; the read-back joins the two bytes written. -/
theorem wideAccessFollowsTheHalves : Obligations.WideAccessFollowsTheHalves := fun s v =>
  ⟨⟨rfl, rfl⟩, ⟨rfl, rfl⟩, ⟨rfl, rfl⟩, ⟨rfl, rfl⟩, ⟨rfl, rfl⟩, ⟨rfl, rfl⟩, setWide_getWide_same s v⟩

/-- Settles O3: a composed register is read and written through its halves, and no half belongs to two registers. -/
theorem wideRegistersShareOnlyTheirHalves : Obligations.WideRegistersShareOnlyTheirHalves := by
  intro s r w b v
  refine ⟨fun q => setByte_getByte s r q b, fun u => ?_, fun q => ?_, fun u => ?_⟩
  · split
    · next hi lo hu => rw [getWide_of_halves _ hu, setByte_getByte, setByte_getByte]
    · next hu => exact setByte_getWide_of_no_halves s r b hu
  · split
    · next hi lo hw => exact setWide_getByte_of_halves s q v hw
    · next hw => exact setWide_getByte_of_no_halves s q v hw
  · split
    · next h => rw [h, setWide_getWide_same]
    · next h => exact setWide_getWide_other s v h

/-! ### The bus bounds (R45) -/

/-- `busStart` is the start of some region. -/
theorem exists_start_eq_busStart {rs : List Region} {lo : Word} (h : busStart rs = some lo) :
    ∃ r ∈ rs, r.start = lo := by
  induction rs generalizing lo with
  | nil => cases h
  | cons y rs ih =>
    simp only [busStart] at h
    split at h
    · exact ⟨y, by simp, by simpa using h⟩
    · next m hm =>
      obtain ⟨r, hr, hrm⟩ := ih hm
      split at h
      · exact ⟨y, by simp, by simpa using h⟩
      · exact ⟨r, by simp [hr], by simpa [hrm] using h⟩

/-- `busEnd` is the end of some region. -/
theorem exists_stop_eq_busEnd {rs : List Region} {hi : Word} (h : busEnd rs = some hi) :
    ∃ r ∈ rs, r.stop = hi := by
  induction rs generalizing hi with
  | nil => cases h
  | cons y rs ih =>
    simp only [busEnd] at h
    split at h
    · exact ⟨y, by simp, by simpa using h⟩
    · next m hm =>
      obtain ⟨r, hr, hrm⟩ := ih hm
      split at h
      · exact ⟨y, by simp, by simpa using h⟩
      · exact ⟨r, by simp [hr], by simpa [hrm] using h⟩

/-- A bus with a region has both bounds. -/
theorem exists_bus_bounds {rs : List Region} (h : rs ≠ []) :
    ∃ lo hi, busStart rs = some lo ∧ busEnd rs = some hi := by
  obtain ⟨lo, hlo⟩ := Option.ne_none_iff_exists'.mp (mt busStart_none.mp h)
  obtain ⟨hi, hhi⟩ := Option.ne_none_iff_exists'.mp (mt busEnd_none.mp h)
  exact ⟨lo, hi, hlo, hhi⟩

/-- Settles O51: the old bounds belong to regions that are still there, so the new ones lie outside them. -/
theorem busBoundsAreLeastStartAndGreatestEnd : Obligations.BusBoundsAreLeastStartAndGreatestEnd := by
  refine ⟨fun rs => ⟨busStart_none, busEnd_none,
    fun _ h => ⟨exists_start_eq_busStart h, busStart_le h⟩,
    fun _ h => ⟨exists_stop_eq_busEnd h, le_busEnd h⟩⟩, ?_⟩
  intro c start stop d lo hi hlo hhi
  obtain ⟨lo', hi', hlo', hhi'⟩ :=
    exists_bus_bounds (rs := (addRegion c start stop d).regions) (by simp [addRegion])
  obtain ⟨r, hr, rfl⟩ := exists_start_eq_busStart hlo
  obtain ⟨q, hq, rfl⟩ := exists_stop_eq_busEnd hhi
  exact ⟨lo', hi', hlo', hhi', busStart_le hlo' r (List.mem_cons_of_mem _ hr),
    le_busEnd hhi' q (List.mem_cons_of_mem _ hq)⟩

/-! ### Reset (R48, R230 to R232) -/

/-- The state reset answers on a bus with these bounds (R231, R232). -/
def resetState (lo hi : Word) (c : Config) (devices : List Device) : State :=
  { a := 0, b := 0, c := 0, d := 0, e := 0, f := 0, g := 0, h := 0,
    pc := lo, sp := hi, status := .running, devices := devices, cfg := c }

theorem resetState_getByte (lo hi : Word) (c : Config) (devices : List Device) (r : ByteReg) :
    (resetState lo hi c devices).getByte r = 0 := by
  cases r <;> rfl

/-- Over a legal configuration and canonical devices reset answers its state. -/
theorem resetOn_of_wf {c : Config} {devices : List Device} {lo hi : Word} (hc : c.wf devices.length = true)
    (hm : Memory.wf devices = true) (hlo : busStart c.regions = some lo) (hhi : busEnd c.regions = some hi) :
    resetOn c devices = .next (resetState lo hi c devices) := by
  simp only [Config.wf, Bool.and_eq_true] at hc
  obtain ⟨⟨⟨-, hord⟩, hbound⟩, hcodes⟩ := hc
  simp [resetOn, hlo, hhi, hord, hbound, hcodes, hm, resetState]

/-- Settles O53: reset answers `resetState`, of which each field is what the rule says. -/
theorem resetLoadsTheResetValues : Obligations.ResetLoadsTheResetValues := by
  intro c devices hc hm
  have hne : c.regions ≠ [] := by
    intro h
    simp [Config.wf, h] at hc
  obtain ⟨lo, hi, hlo, hhi⟩ := exists_bus_bounds hne
  exact ⟨resetState lo hi c devices, resetOn_of_wf hc hm hlo hhi, resetState_getByte lo hi c devices, hlo, hhi,
    rfl, rfl, rfl, ⟨hc, hm, rfl⟩⟩

/-- Settles O55: the region makes the bus non-empty, and the order of the regions is checked first. -/
theorem resetRefusesAReversedRegion : Obligations.ResetRefusesAReversedRegion := by
  intro c devices r hr hrev
  obtain ⟨lo, hi, hlo, hhi⟩ := exists_bus_bounds (List.ne_nil_of_mem hr)
  have hord : regionsOrdered c.regions = false :=
    List.all_eq_false.mpr ⟨r, hr, by simpa using hrev⟩
  simp [resetOn, hlo, hhi, hord]

/-- Settles O56: the full platform is legal and its bounds are 0x0000 and 0xFFFF. -/
theorem resetStateIsResetOverTheFullPlatform : Obligations.ResetStateIsResetOverTheFullPlatform :=
  resetOn_of_wf (by decide) reset_memory_wf rfl rfl

/-- Settles O29: the full platform is legal and its device lists no byte. -/
theorem resetStateMeetsTheInvariant : Obligations.ResetStateMeetsTheInvariant :=
  ⟨by decide, reset_memory_wf, rfl⟩

/-! ### What an instruction and a step can change

A raised condition changes the status and nothing else (R200), so what an instruction leaves unchanged is said once for
all its ends, of the next state with the status put back; the status has lemmas of its own. -/

/-- The state with this status. -/
def State.withStatus (s : State) (st : Status) : State := { s with status := st }

section WithStatus
variable (s : State) (st : Status)

@[simp] theorem withStatus_getByte (r : ByteReg) : (s.withStatus st).getByte r = s.getByte r := by cases r <;> rfl
@[simp] theorem withStatus_sp : (s.withStatus st).sp = s.sp := rfl
@[simp] theorem withStatus_devices : (s.withStatus st).devices = s.devices := rfl
@[simp] theorem withStatus_cfg : (s.withStatus st).cfg = s.cfg := rfl
@[simp] theorem withStatus_slotByte (x : Slot) : (s.withStatus st).slotByte x = s.slotByte x := rfl
@[simp] theorem withStatus_route (a : Word) : (s.withStatus st).route a = s.route a := rfl

variable {s st} (h : s.status = st)
include h

theorem withStatus_of_eq : s.withStatus st = s := by
  subst h
  rfl

/-- Putting the status back undoes a stop. -/
theorem stopWith_withStatus (c : Condition) : (s.stopWith c).withStatus st = s := by
  subst h
  cases c <;> rfl

end WithStatus

theorem eq_of_exec_hlt {s t : State} (h : exec .hlt s = .next t) : t = s.stopWith .halt := by
  simpa [exec_hlt] using h.symm

/-- An instruction's frame, however the instruction ends. -/
theorem exec_frame {i : Instr} {s t : State} (h : exec i s = .next t) : ExecFrame i s (t.withStatus s.status) := by
  by_cases hi : i = .hlt
  · subst hi
    rw [eq_of_exec_hlt h, stopWith_withStatus rfl]
    exact (SameButPc.refl s).execFrame
  · rcases exec_cases hi h with hf | ⟨e, u, -, hu, rfl⟩
    · rwa [withStatus_of_eq hf.status]
    · rw [stopWith_withStatus hu.frame.status]
      exact hu.frame

/-- The status after an instruction but HLT: what it was, or Faulted with a cause a step can record. -/
theorem exec_status {i : Instr} (hi : i ≠ .hlt) {s t : State} (h : exec i s = .next t) :
    t.status = s.status ∨ ∃ e, e.ofStep = true ∧ t.status = .faulted e := by
  rcases exec_cases hi h with hf | ⟨e, u, he, -, rfl⟩
  · exact .inl hf.status
  · exact .inr ⟨e, he, rfl⟩

/-- An instruction keeps a legal status legal. -/
theorem exec_status_legal {i : Instr} {s t : State} (hs : s.status.legal = true) (h : exec i s = .next t) :
    t.status.legal = true := by
  by_cases hi : i = .hlt
  · subst hi
    rw [eq_of_exec_hlt h]
    rfl
  · rcases exec_status hi h with hst | ⟨e, he, hst⟩ <;> rw [hst]
    · exact hs
    · exact he

/-- A frame from the state after the opcode fetch is one from the state before it. -/
theorem ExecFrame.of_advance {i : Instr} {s t : State} {k : Nat} (h : ExecFrame i (s.advance k) t) :
    ExecFrame i s t where
  byteRegs r hr := (h.byteRegs r hr).trans (advance_getByte s r k)
  sp := h.sp
  status := h.status
  memory x hx := (h.memory x fun a ha => advance_route s k a ▸ hx a ha).trans (advance_slotByte s k x)
  route a := (h.route a).trans (advance_route s k a)
  cfg := h.cfg
  lengths := h.lengths
  canonical := h.canonical

/-- Only a running engine has a step (R138). -/
theorem running_of_step {s t : State} (h : step s = .next t) : s.status = .running := by
  cases hs : s.status with
  | running => rfl
  | halted | faulted c => simp [step, hs] at h

/-- A step's frame is that of the instruction at PC, also when its opcode fetch fails. -/
theorem step_frame {s t : State} (h : step s = .next t) :
    ExecFrame ((s.advance 1).instrAt (s.peek s.pc)) s (t.withStatus s.status) := by
  rcases step_cases (running_of_step h) h with ⟨e, u, -, hu, -, rfl⟩ | ⟨-, hx⟩
  · rw [stopWith_withStatus hu.status]
    exact hu.execFrame
  · exact (exec_frame hx).of_advance

/-- A step ends in a legal status. -/
theorem step_status_legal {s t : State} (h : step s = .next t) : t.status.legal = true := by
  have hs := running_of_step h
  rcases step_cases hs h with ⟨e, u, he, -, -, rfl⟩ | ⟨-, hx⟩
  · exact he
  · exact exec_status_legal (by simp [hs, Status.legal]) hx

/-- Settles O30: the frame of the step keeps the configuration, the number of devices and the canonical form, and
its end gives the status. -/
theorem everyStepKeepsTheInvariant : Obligations.EveryStepKeepsTheInvariant := by
  intro s t hs h
  have hf := step_frame h
  have hcfg : t.cfg = s.cfg := hf.cfg
  have hlen : t.devices.length = s.devices.length := by simpa using congrArg List.length hf.lengths
  exact {
    config := by rw [hcfg, hlen]; exact hs.config
    memory := hf.canonical hs.memory
    status := step_status_legal h }

/-- Settles O27: both are parts of the step's frame. -/
theorem configurationNeverChanges : Obligations.ConfigurationNeverChanges := fun _ _ h =>
  ⟨(step_frame h).cfg, (step_frame h).lengths⟩

/-- Settles O28: an instruction whose destination is not SP leaves SP inside its frame. -/
theorem spChangesOnlyAsExplicitDestination : Obligations.SpChangesOnlyAsExplicitDestination :=
  fun _ _ _ h hsp => by_contra fun hd => hsp ((exec_frame h).sp hd)

/-- What an instruction but HLT leaves as it was, of the next state itself: the frame, and a status that stays or
becomes Faulted. -/
theorem exec_changes_only {i : Instr} (hi : i ≠ .hlt) {s t : State} (h : exec i s = .next t) :
    (∀ r, (∀ q, destination s.cfg.regCodes i = some q → covers q r = false) → t.getByte r = s.getByte r) ∧
    (destination s.cfg.regCodes i ≠ some (.wide .sp) → t.sp = s.sp) ∧
    (t.status = s.status ∨ ∃ c, t.status = .faulted c) ∧
    (∀ x, (∀ a ∈ storeAddresses s.cfg.regCodes i, s.route a ≠ .ok x) → t.slotByte x = s.slotByte x) ∧
    (∀ a, t.route a = s.route a) ∧ t.cfg = s.cfg := by
  have hf := exec_frame h
  refine ⟨fun r hr => ?_, hf.sp, ?_, hf.memory, hf.route, hf.cfg⟩
  · simpa using hf.byteRegs r hr
  · exact (exec_status hi h).imp_right fun ⟨e, _, he⟩ => ⟨e, he⟩

/-- An instruction without a store address changes no byte of memory. -/
theorem exec_slotByte_of_no_store {i : Instr} {s t : State} (hn : storeAddresses s.cfg.regCodes i = [])
    (h : exec i s = .next t) (x : Slot) : t.slotByte x = s.slotByte x :=
  (exec_frame h).memory x (by simp [hn])

/-- Settles O48: the register moves stay inside the frame and store nothing. -/
theorem registerMovesChangeOnlyPcAndDestination : Obligations.RegisterMovesChangeOnlyPcAndDestination := by
  intro i s t hk h
  obtain ⟨hi, hn⟩ : i ≠ .hlt ∧ storeAddresses s.cfg.regCodes i = [] := by
    rcases hk with ⟨imm, dst, rfl⟩ | ⟨imm, dst, rfl⟩ | ⟨src, dst, rfl⟩ <;> exact ⟨by simp, rfl⟩
  obtain ⟨hbyte, hsp, hst, -, hroute, hcfg⟩ := exec_changes_only hi h
  exact ⟨hbyte, hsp, hst, exec_slotByte_of_no_store hn h, hroute, hcfg⟩

/-- Settles O49: the loads stay inside the frame and store nothing; their pointer or offset is no destination. -/
theorem loadsChangeOnlyPcAndDestination : Obligations.LoadsChangeOnlyPcAndDestination := by
  intro i s t hk h
  obtain ⟨hi, hn⟩ : i ≠ .hlt ∧ storeAddresses s.cfg.regCodes i = [] := by
    rcases hk with ⟨addr, dst, rfl⟩ | ⟨ptr, dst, rfl⟩ | ⟨base, off, dst, rfl⟩ <;> exact ⟨by simp, rfl⟩
  obtain ⟨hbyte, hsp, hst, -, hroute, hcfg⟩ := exec_changes_only hi h
  exact ⟨hbyte, hsp, hst, exec_slotByte_of_no_store hn h, hroute, hcfg⟩

/-- Settles O50: the stores stay inside the frame and have no destination. -/
theorem storesChangeOnlyPcAndTheStoredBytes : Obligations.StoresChangeOnlyPcAndTheStoredBytes := by
  intro i s t hk h
  obtain ⟨hi, hn⟩ : i ≠ .hlt ∧ destination s.cfg.regCodes i = none := by
    rcases hk with ⟨src, addr, rfl⟩ | ⟨imm, addr, rfl⟩ | ⟨imm, addr, rfl⟩ <;> exact ⟨by simp, rfl⟩
  obtain ⟨hbyte, hsp, hst, hmem, hroute, hcfg⟩ := exec_changes_only hi h
  exact ⟨fun r => hbyte r (by simp [hn]), hsp (by simp [hn]), hst, hmem, hroute, hcfg⟩

end Sys2Proof.Machine
end

section
/-!
PROOFS. The memory of 20_memory.md: the lookup of the bus and its misses (R65 to R69), the device contract (R61 to R63,
R232), a read after a write (R64, R72 to R74, R80, R83), and what a failing word write or store leaves (R73, R131).
-/

namespace Sys2Proof.Machine

/-! ### The lookup -/

theorem regionHolds_iff (r : Region) (a : Word) : regionHolds r a = true ↔ r.start ≤ a ∧ a ≤ r.stop := by
  simp [regionHolds]

theorem regionHolds_of_lookup {rs : List Region} {a : Word} {r : Region} (h : lookup rs a = some r) :
    r.start ≤ a ∧ a ≤ r.stop :=
  (regionHolds_iff r a).mp (List.find?_some (p := fun r => regionHolds r a) h)

theorem lookup_eq_none_iff (rs : List Region) (a : Word) :
    lookup rs a = none ↔ ∀ r ∈ rs, ¬ (r.start ≤ a ∧ a ≤ r.stop) := by
  simp only [lookup, List.find?_eq_none, regionHolds_iff]

theorem lookup_eq_none_of_lt_busStart {rs : List Region} {a lo : Word} (h : busStart rs = some lo) (ha : a < lo) :
    lookup rs a = none :=
  (lookup_eq_none_iff rs a).mpr fun r hr hin => by
    have := busStart_le h r hr
    bv_omega

theorem lookup_eq_none_of_busEnd_lt {rs : List Region} {a hi : Word} (h : busEnd rs = some hi) (ha : hi < a) :
    lookup rs a = none :=
  (lookup_eq_none_iff rs a).mpr fun r hr hin => by
    have := le_busEnd h r hr
    bv_omega

/-- R68: the region added last is the first one asked. -/
theorem lookup_addRegion (c : Config) (start stop : Word) (d : Nat) (a : Word) :
    lookup (addRegion c start stop d).regions a =
      if start ≤ a ∧ a ≤ stop then some ⟨start, stop, d⟩ else lookup c.regions a := by
  by_cases h : start ≤ a ∧ a ≤ stop <;> simp [lookup, addRegion, regionHolds, h]

section Route
variable {s : State} {a : Word}

theorem route_of_lookup_none (h : lookup s.cfg.regions a = none) : s.route a = .error (.outOfBounds a) := by
  simp [State.route, h]

theorem route_of_lookup {r : Region} (h : lookup s.cfg.regions a = some r) :
    s.route a = if s.hasByte r.device (a - r.start).toNat then .ok ⟨r.device, (a - r.start).toNat⟩
      else .error (.outOfBounds (a - r.start)) := by
  simp [State.route, h]

/-- Where no region is found, both byte accesses fail with the bus address. -/
theorem bus_miss (h : lookup s.cfg.regions a = none) (v : Byte) :
    memRead8 a s = .error (.fault (.outOfBounds a)) s ∧
    memWrite8 a v s = .error (.fault (.outOfBounds a)) s :=
  ⟨memRead8_error (route_of_lookup_none h), memWrite8_error (route_of_lookup_none h) v⟩

/-- A region that holds the address translates it to the exact difference, inside the region's extent. -/
theorem toNat_translated {r : Region} (h : r.start ≤ a ∧ a ≤ r.stop) :
    (a - r.start).toNat = a.toNat - r.start.toNat ∧ r.start.toNat ≤ a.toNat ∧
    (a - r.start).toNat ≤ r.stop.toNat - r.start.toNat := by
  obtain ⟨hlo, hhi⟩ := h
  have hsub := BitVec.toNat_sub_of_le hlo
  rw [BitVec.le_def] at hlo hhi
  omega

end Route

/-! ### What a completed write has done -/

section Completed
variable {s t : State} {a : Word}

theorem eq_setSlot_of_memWrite8 {v : Byte} (h : memWrite8 a v s = .ok () t) :
    ∃ x, s.route a = .ok x ∧ t = s.setSlot x v := by
  cases hr : s.route a with
  | ok x => exact ⟨x, rfl, by simpa [memWrite8_ok hr] using h.symm⟩
  | error c => simp [memWrite8_error hr] at h

theorem eq_setSlot_of_memWrite16 {v : Word} (h : memWrite16 a v s = .ok () t) :
    ∃ x y, s.WordAt a x y ∧ t = (s.setSlot x (high v)).setSlot y (low v) := by
  rcases word_cases s a with ⟨c, hc⟩ | ⟨x, c, hx, hc⟩ | ⟨x, y, hw⟩
  · simp [memWrite16_first hc] at h
  · simp [memWrite16_second hx hc] at h
  · exact ⟨x, y, hw, by simpa [memWrite16_ok hw] using h.symm⟩

/-- A byte write moves no word. -/
@[simp] theorem setSlot_wordAt (s : State) (z : Slot) (v : Byte) (a : Word) (x y : Slot) :
    (s.setSlot z v).WordAt a x y ↔ s.WordAt a x y := by simp [State.WordAt]

/-- Two different bytes written one after the other both read back. -/
theorem setSlot_setSlot_slotByte {x y : Slot} (hs : Memory.wf s.devices = true) (hne : y ≠ x)
    (hx : s.hasByte x.device x.offset = true) (hy : s.hasByte y.device y.offset = true) (u v : Byte) :
    ((s.setSlot x u).setSlot y v).slotByte x = u ∧ ((s.setSlot x u).setSlot y v).slotByte y = v :=
  ⟨(setSlot_slotByte_other _ v hne.symm).trans (setSlot_slotByte_same hs u hx),
    setSlot_slotByte_same (setSlot_memory_wf hs u hx) v ((setSlot_hasByte ..).trans hy)⟩

end Completed

/-! ### The device contract -/

section Device
variable {s : State} {d : Nat} {a : Word}

theorem devRead8_ok (h : s.hasByte d a.toNat = true) : devRead8 d a s = .ok (s.slotByte ⟨d, a.toNat⟩) s := by
  simp [devRead8, h]

theorem devRead8_error (h : s.hasByte d a.toNat = false) : devRead8 d a s = .error (.fault (.outOfBounds a)) s := by
  simp [devRead8, h]

theorem devWrite8_ok (h : s.hasByte d a.toNat = true) (v : Byte) :
    devWrite8 d a v s = .ok () (s.setSlot ⟨d, a.toNat⟩ v) := by
  simp [devWrite8, h]

theorem devWrite8_error (h : s.hasByte d a.toNat = false) (v : Byte) :
    devWrite8 d a v s = .error (.fault (.outOfBounds a)) s := by
  simp [devWrite8, h]

theorem devReadWide_ok (h : s.hasByte d a.toNat = true) (hi : s.canInc a 1 = true)
    (h' : s.hasByte d (a + 1#16).toNat = true) :
    devReadWide d a s = .ok (cat (s.slotByte ⟨d, a.toNat⟩) (s.slotByte ⟨d, (a + 1#16).toNat⟩)) s := by
  simp [devReadWide, devRead8_ok h, inc16_ok hi, devRead8_ok h']

/-- A completed word write found both bytes and wrote the high one first. -/
theorem eq_setSlot_of_devWriteWide {t : State} {v : Word} (h : devWriteWide d a v s = .ok () t) :
    s.hasByte d a.toNat = true ∧ s.canInc a 1 = true ∧ s.hasByte d (a + 1#16).toNat = true ∧
    t = (s.setSlot ⟨d, a.toNat⟩ (high v)).setSlot ⟨d, (a + 1#16).toNat⟩ (low v) := by
  cases hx : s.hasByte d a.toNat with
  | false => simp [devWriteWide, devWrite8_error hx] at h
  | true =>
    have hinc := setSlot_canInc s ⟨d, a.toNat⟩ (high v) a 1
    cases hi : s.canInc a 1 with
    | false => simp [devWriteWide, devWrite8_ok hx, inc16_error (hinc.trans hi)] at h
    | true =>
      have hbyte := setSlot_hasByte s ⟨d, a.toNat⟩ (high v) d (a + 1#16).toNat
      cases hy : s.hasByte d (a + 1#16).toNat with
      | false =>
        simp [devWriteWide, devWrite8_ok hx, inc16_ok (hinc.trans hi), devWrite8_error (hbyte.trans hy)] at h
      | true =>
        refine ⟨rfl, rfl, rfl, ?_⟩
        simpa [devWriteWide, devWrite8_ok hx, inc16_ok (hinc.trans hi), devWrite8_ok (hbyte.trans hy)] using h.symm

/-- R67: the bus hands the access to the device of the region it found. -/
theorem bus_access_eq_device_access {r : Region} (h : lookup s.cfg.regions a = some r) (v : Byte) :
    memRead8 a s = devRead8 r.device (a - r.start) s ∧
    memWrite8 a v s = devWrite8 r.device (a - r.start) v s := by
  have hr := route_of_lookup h
  cases hb : s.hasByte r.device (a - r.start).toNat with
  | true =>
    rw [hb, if_pos rfl] at hr
    exact ⟨(memRead8_ok hr).trans (devRead8_ok hb).symm, (memWrite8_ok hr v).trans (devWrite8_ok hb v).symm⟩
  | false =>
    rw [hb, if_neg Bool.false_ne_true] at hr
    exact ⟨(memRead8_error hr).trans (devRead8_error hb).symm,
      (memWrite8_error hr v).trans (devWrite8_error hb v).symm⟩

theorem hasByte_of_device {dev : Device} (h : s.devices[d]? = some dev) (k : Nat) :
    s.hasByte d k = decide (k < dev.len) := by
  simp [State.hasByte, h]

theorem slotByte_of_device {dev : Device} (h : s.devices[d]? = some dev) (k : Nat) :
    s.slotByte ⟨d, k⟩ = cellRead dev.cells k := by
  simp [State.slotByte, h]

end Device

/-- The cells of an image read as the image, from the address of its first byte on. -/
theorem getElem?_eq_cellRead_cellsOf (image : List Byte) (k : Nat) {t : Nat} (h : t < image.length) :
    image[t]? = some (cellRead (cellsOf k image) (k + t)) := by
  induction image generalizing k t with
  | nil => simp at h
  | cons v vs ih =>
    have hbelow : cellRead (cellsOf (k + 1) vs) k = unlistedByte := cellRead_below fun _ hx => (mem_cellsOf hx).1
    rw [cellsOf, cellRead_cellCons _ _ _ _ hbelow]
    cases t with
    | zero => simp
    | succ t =>
      rw [if_neg (by omega), List.getElem?_cons_succ, ih (k + 1) (by simpa using h),
        Nat.add_right_comm k 1 t, Nat.add_assoc]

theorem deviceOf_wf (image : List Byte) : (deviceOf image).wf = true := by
  refine (device_wf_iff _).mpr ⟨cellsOf_pairwise 0 image, fun x hx => ?_⟩
  obtain ⟨-, hlt, hne⟩ := mem_cellsOf hx
  exact ⟨by simpa [deviceOf] using hlt, hne⟩

/-! ### The second byte of a word, the next fetch, the operands of a store -/

/-- R131: only 0xFFFF has no next address, and only without wrapping. -/
theorem canInc_one_iff (s : State) (a : Word) : s.canInc a 1 = true ↔ s.cfg.wrap16 = true ∨ a ≠ 0xFFFF := by
  have : a.toNat + 1 ≤ 0xFFFF ↔ a ≠ 0xFFFF := by bv_omega
  rw [canInc_iff, this]

theorem secondByteFault_of_overflow {s : State} {a : Word} (h : s.canInc a 1 = false) :
    s.secondByteFault a = some (.addressOverflow a) := by
  simp [State.secondByteFault, h]

theorem secondByteFault_of_miss {s : State} {a : Word} {c : Cause} (hi : s.canInc a 1 = true)
    (h : s.route (a + 1#16) = .error c) : s.secondByteFault a = some c := by
  simp [State.secondByteFault, hi, h]

/-- A byte fetch gives the byte that serves PC. -/
theorem fetch8_of_route {s : State} {x : Slot} (hi : s.canInc s.pc 1 = true) (hx : s.route s.pc = .ok x) :
    fetch8 s = .ok (s.slotByte x) (s.advance 1) := by
  have h : s.canFetch 1 = true := (canFetch_iff s 1).mpr ⟨hi, fun j hj => ⟨x, by
    obtain rfl : j = 0 := by omega
    simpa using hx⟩⟩
  simp [fetch8_ok h, State.peek, hx]

section Store
variable {s : State}

/-- MOV_REG_MEM with both operands fetched is its store. -/
theorem exec_movRegMem_of_fetch {src : RegCode} {q : AnyReg} (h : s.canFetch 3 = true)
    (hq : s.cfg.regCodes.anyOf src = some q) (addr : Word) :
    exec (.movRegMem src addr) s = conclude (storeFrom q addr (s.advance 3)) := by
  have h2 : (s.advance 1).canFetch 2 = true := canFetch_advance h
  simp [exec, execMovRegMem, operandAnyReg_ok (canFetch_mono h (by omega)) hq, operand16_ok h2]

/-- MOV_LIT_MEM with both operands fetched is its store. -/
theorem exec_movLitMem_of_fetch (h : s.canFetch 3 = true) (imm : Byte) (addr : Word) :
    exec (.movLitMem imm addr) s = conclude (memWrite8 addr imm (s.advance 3)) := by
  have h2 : (s.advance 1).canFetch 2 = true := canFetch_advance h
  simp [exec, execMovLitMem, operand8_ok (canFetch_mono h (by omega)), operand16_ok h2]

/-- MOV_LIT_MEM_WIDE with both operands fetched is its store. -/
theorem exec_movLitMemWide_of_fetch (h : s.canFetch 4 = true) (imm addr : Word) :
    exec (.movLitMemWide imm addr) s = conclude (memWrite16 addr imm (s.advance 4)) := by
  have h2 : (s.advance 2).canFetch 2 = true := canFetch_advance h
  simp [exec, execMovLitMemWide, operand16_ok (canFetch_mono h (by omega)), operand16_ok h2]

theorem storeFrom_byte (r : ByteReg) (a : Word) : storeFrom (.byte r) a s = memWrite8 a (s.getByte r) s := by
  simp [storeFrom]

theorem storeFrom_wide (w : WideReg) (a : Word) : storeFrom (.wide w) a s = memWrite16 a (s.getWide w) s := by
  simp [storeFrom]

/-- A store of either width stores nothing when its first byte fails. -/
theorem storeFrom_first (q : AnyReg) {a : Word} {c : Cause} (h : s.route a = .error c) :
    storeFrom q a s = .error (.fault c) s := by
  cases q with
  | byte r => rw [storeFrom_byte, memWrite8_error h]
  | wide w => rw [storeFrom_wide, memWrite16_first h]

end Store

/-! ### The statements -/

/-- Settles O4: each of the three ways to miss leaves the lookup empty. -/
theorem busMissCarriesTheBusAddress : Obligations.BusMissCarriesTheBusAddress := by
  rintro s a v (hout | ⟨lo, hlo, ha⟩ | ⟨hi, hhi, ha⟩)
  · exact bus_miss ((lookup_eq_none_iff ..).mpr hout) v
  · exact bus_miss (lookup_eq_none_of_lt_busStart hlo ha) v
  · exact bus_miss (lookup_eq_none_of_busEnd_lt hhi ha) v

/-- Settles O5: the region added last is the one found inside it, and is not found outside it. -/
theorem laterRegionShadowsEarlierOnes : Obligations.LaterRegionShadowsEarlierOnes := by
  intro s c start stop d hc
  have hin : ∀ a, start ≤ a ∧ a ≤ stop → s.route a =
      if s.hasByte d (a - start).toNat then .ok ⟨d, (a - start).toNat⟩
      else .error (.outOfBounds (a - start)) := fun a ha =>
    route_of_lookup (r := ⟨start, stop, d⟩) (by rw [hc, lookup_addRegion, if_pos ha])
  refine ⟨hin, fun a ha => ?_, fun a v t x ha hw hx => ?_⟩
  · have hl : lookup s.cfg.regions a = lookup c.regions a := by rw [hc, lookup_addRegion, if_neg ha]
    simp only [State.route, hl]
    rfl
  · obtain ⟨y, hy, rfl⟩ := eq_setSlot_of_memWrite8 hw
    have hd : y.device = d := by
      rw [hin a ha] at hy
      split at hy
      · obtain rfl : _ = y := by simpa using hy
        rfl
      · simp at hy
    exact setSlot_slotByte_other s v fun hxy => hx (hxy ▸ hd)

/-- Settles O6: the bus access is the device's, whose bounds check decides. -/
theorem deviceRejectsAccessesAtOrBeyondItsLength : Obligations.DeviceRejectsAccessesAtOrBeyondItsLength := by
  intro s a r dev v hl hd
  obtain ⟨hread, hwrite⟩ := bus_access_eq_device_access hl v
  have hb := hasByte_of_device hd (a - r.start).toNat
  rw [hread, hwrite]
  refine ⟨fun hlt => ?_, fun hle => ?_⟩
  · have hin := hb.trans (decide_eq_true hlt)
    exact ⟨slotByte_of_device hd _ ▸ devRead8_ok hin, devWrite8_ok hin v⟩
  · have hout := hb.trans (decide_eq_false (Nat.not_lt.mpr hle))
    exact ⟨devRead8_error hout, devWrite8_error hout v⟩

/-- Settles O7: the region found holds the address, so the translation is the exact difference. -/
theorem busAccessIsTheDeviceAccessAtTheTranslatedAddress :
    Obligations.BusAccessIsTheDeviceAccessAtTheTranslatedAddress := by
  refine fun s a v => ⟨fun r hl => ?_, fun hl => bus_miss hl v⟩
  obtain ⟨hread, hwrite⟩ := bus_access_eq_device_access hl v
  exact ⟨hread, hwrite, toNat_translated (regionHolds_of_lookup hl)⟩

/-- Settles O8: the two bytes written are different bytes of one device. -/
theorem deviceWordReadsBackHighByteFirst : Obligations.DeviceWordReadsBackHighByteFirst := by
  intro s t d a v hs h
  obtain ⟨hx, hi, hy, rfl⟩ := eq_setSlot_of_devWriteWide h
  have hne : (⟨d, (a + 1#16).toNat⟩ : Slot) ≠ ⟨d, a.toNat⟩ := fun h => by
    have := (Slot.mk.inj h).2
    bv_omega
  obtain ⟨hhigh, hlow⟩ := setSlot_setSlot_slotByte hs hne hx hy (high v) (low v)
  have hbyte := fun k => ((setSlot_hasByte _ ⟨d, (a + 1#16).toNat⟩ (low v) d k).trans
    (setSlot_hasByte s ⟨d, a.toNat⟩ (high v) d k))
  have hx' := (hbyte _).trans hx
  have hy' := (hbyte _).trans hy
  exact ⟨by rw [devReadWide_ok hx' hi hy', hhigh, hlow, cat_high_low], by rw [devRead8_ok hx', hhigh],
    by rw [devRead8_ok hy', hlow]⟩

/-- Settles O9: the write sets the byte its address reaches, and routing stays as it was. -/
theorem writtenByteReadsBackAndOthersStay : Obligations.WrittenByteReadsBackAndOthersStay := by
  intro s t a v hs h
  obtain ⟨x, hx, rfl⟩ := eq_setSlot_of_memWrite8 h
  refine ⟨?_, fun b y hy hne => ?_⟩
  · have hread := memRead8_ok ((setSlot_route s x v a).trans hx)
    rwa [setSlot_slotByte_same hs v (hasByte_of_route hx)] at hread
  · have hread := memRead8_ok ((setSlot_route s x v b).trans hy)
    rwa [setSlot_slotByte_other s v (by rintro rfl; exact hne hx)] at hread

/-- Settles O10: in a legal configuration the two addresses reach two different bytes. -/
theorem writtenWordReadsBackHighByteFirst : Obligations.WrittenWordReadsBackHighByteFirst := by
  intro s t a v hs h
  obtain ⟨x, y, hw, rfl⟩ := eq_setSlot_of_memWrite16 h
  have hw' : ((s.setSlot x (high v)).setSlot y (low v)).WordAt a x y := by simpa using hw
  obtain ⟨hhigh, hlow⟩ := setSlot_setSlot_slotByte hs.memory (wordAt_ne hs.config hw)
    (hasByte_of_route hw.1) (hasByte_of_route hw.2.2) (high v) (low v)
  exact ⟨by rw [memRead16_ok hw', hhigh, hlow, cat_high_low], by rw [memRead8_ok hw'.1, hhigh],
    by rw [memRead8_ok hw'.2.2, hlow]⟩

/-- Settles O11: both cases are a failing second byte, before which the first was written. -/
theorem failedWordWriteKeepsItsFirstByte : Obligations.FailedWordWriteKeepsItsFirstByte := by
  intro s a v x c hx hc
  have hsecond : s.secondByteFault a = some c := by
    rcases hc with ⟨hwrap, rfl, rfl⟩ | ⟨hinc, hmiss⟩
    · exact secondByteFault_of_overflow (Bool.eq_false_iff.mpr fun h => by simp [canInc_one_iff, hwrap] at h)
    · exact secondByteFault_of_miss ((canInc_one_iff s a).mpr hinc) hmiss
  exact ⟨memWrite16_second hx hsecond v, memRead16_second hx hsecond⟩

/-- Settles O14: the fetch reads the byte that the write at PC reached. -/
theorem storedByteIsWhatTheNextFetchGives : Obligations.StoredByteIsWhatTheNextFetchGives := by
  intro s t v hs h hpc
  obtain ⟨x, hx, rfl⟩ := eq_setSlot_of_memWrite8 h
  have hfetch := fetch8_of_route (s := s.setSlot x v) ((canInc_one_iff s s.pc).mpr hpc.symm)
    ((setSlot_route s x v s.pc).trans hx)
  rwa [setSlot_slotByte_same hs v (hasByte_of_route hx)] at hfetch

/-- Settles O47: with its operands fetched a store is one memory write, which fails at its first or its second byte. -/
theorem failedStoreKeepsOnlyAWrittenFirstByte : Obligations.FailedStoreKeepsOnlyAWrittenFirstByte := by
  refine fun s addr c => ⟨fun hc => ?_, fun x hx hc => ?_⟩
  · have hc' : ∀ k, (s.advance k).route addr = .error c := fun k => (advance_route s k addr).trans hc
    refine ⟨fun src q h hq => ?_, fun imm h => ?_, fun imm h => ?_⟩
    · rw [exec_movRegMem_of_fetch h hq, storeFrom_first q (hc' 3), conclude_error]
    · rw [exec_movLitMem_of_fetch h, memWrite8_error (hc' 3), conclude_error]
    · rw [exec_movLitMemWide_of_fetch h, memWrite16_first (hc' 4), conclude_error]
  · have hx' : ∀ k, (s.advance k).route addr = .ok x := fun k => (advance_route s k addr).trans hx
    have hc' : ∀ k, (s.advance k).secondByteFault addr = some c := fun k =>
      (advance_secondByteFault s k addr).trans hc
    refine ⟨fun src w h hq => ?_, fun imm h => ?_⟩
    · rw [exec_movRegMem_of_fetch h hq, storeFrom_wide, memWrite16_second (hx' 3) (hc' 3), conclude_error]
    · rw [exec_movLitMemWide_of_fetch h, memWrite16_second (hx' 4) (hc' 4), conclude_error]

/-- Settles O54: the cells of an image lie inside it in rising order and read as its bytes. -/
theorem deviceHoldsTheImageItIsGiven : Obligations.DeviceHoldsTheImageItIsGiven := fun image =>
  ⟨deviceOf_wf image, rfl, fun t ht => by simpa [deviceOf] using getElem?_eq_cellRead_cellsOf image 0 ht⟩

end Sys2Proof.Machine
end

section
/-!
PROOFS. The encoding of 30_encoding.md: register codes (R107 to R109), the round trip of encoder and decoder (R102 to
R104, R110), the step as the cycle of the spec (R105, R136), and where an instruction stops on an operand (R109, R131 to
R134, R204).
-/

namespace Sys2Proof.Machine

/-! ### Register codes (R107 to R109) -/

section Codes
variable {t : RegCodes} {c c' : RegCode} {r : ByteReg} {w : WideReg}

/-- A pair that lookup finds is in the list. -/
theorem mem_of_lookup {β : Type} {l : List (RegCode × β)} {b : β} (h : l.lookup c = some b) : (c, b) ∈ l := by
  obtain ⟨l₁, l₂, rfl, -⟩ := List.lookup_eq_some_iff.mp h
  simp

/-- Where no register of a list stands twice, its code is determined. -/
theorem code_unique_of_nodup {β : Type} {l : List (RegCode × β)} {b : β} (hl : (l.map Prod.snd).Nodup)
    (h : l.lookup c = some b) (h' : l.lookup c' = some b) : c = c' :=
  congrArg Prod.fst (List.inj_on_of_nodup_map hl (mem_of_lookup h) (mem_of_lookup h') rfl)

theorem regCodes_wf_iff : t.wf = true ↔
    (t.byteCodes.map Prod.fst ++ t.wideCodes.map Prod.fst).Nodup ∧ (t.byteCodes.map Prod.snd).Nodup ∧
      (t.wideCodes.map Prod.snd).Nodup := by
  simp [RegCodes.wf, and_assoc]

/-- R107: the two maps of a legal table have disjoint domains. -/
theorem wideOf_eq_none_of_byteOf (ht : t.wf = true) (h : t.byteOf c = some r) : t.wideOf c = none := by
  obtain ⟨hdom, -, -⟩ := regCodes_wf_iff.mp ht
  refine Option.eq_none_iff_forall_ne_some.mpr fun w hw => ?_
  exact List.disjoint_of_nodup_append hdom (List.mem_map_of_mem (f := Prod.fst) (mem_of_lookup h))
    (List.mem_map_of_mem (f := Prod.fst) (mem_of_lookup hw))

theorem byteOf_eq_none_of_wideOf (ht : t.wf = true) (h : t.wideOf c = some w) : t.byteOf c = none :=
  Option.eq_none_iff_forall_ne_some.mpr fun r hr => by simp [wideOf_eq_none_of_byteOf ht hr] at h

/-- A code classifies as a byte register exactly when it is that register's byte code. -/
theorem anyOf_eq_byte_iff : t.anyOf c = some (.byte r) ↔ t.byteOf c = some r := by
  cases hb : t.byteOf c <;> cases hw : t.wideOf c <;> simp [RegCodes.anyOf, hb, hw]

/-- A code classifies as a wide register exactly when it is that register's wide code and no byte code. -/
theorem anyOf_eq_wide_iff : t.anyOf c = some (.wide w) ↔ t.byteOf c = none ∧ t.wideOf c = some w := by
  cases hb : t.byteOf c <;> cases hw : t.wideOf c <;> simp [RegCodes.anyOf, hb, hw]

theorem anyOf_eq_none_iff : t.anyOf c = none ↔ t.byteOf c = none ∧ t.wideOf c = none := by
  cases hb : t.byteOf c <;> cases hw : t.wideOf c <;> simp [RegCodes.anyOf, hb, hw]

end Codes

/-! ### The round trip (R102 to R104, R110) -/

/-- The decoder after an assigned opcode byte, whose operand bytes are there. -/
theorem decode_code_cons (o : Opcode) {tail : List Byte} (h : o.size ≤ tail.length + 1) :
    decode (o.code :: tail) =
      .ok (assemble o (tail.getD 0 0) (tail.getD 1 0) (tail.getD 2 0) (tail.getD 3 0), tail.drop (o.size - 1)) := by
  simp [decode, h]

/-- R103: an assembled instruction is encoded as its opcode byte and as many of the four bytes as its format takes. -/
theorem encode_assemble (o : Opcode) (b1 b2 b3 b4 : Byte) :
    encode (assemble o b1 b2 b3 b4) = o.code :: [b1, b2, b3, b4].take (o.size - 1) := by
  cases o <;> simp [assemble, encode, Opcode.size, high_cat, low_cat]

/-- Every instruction is assembled from its opcode and some four bytes. -/
theorem exists_eq_assemble (i : Instr) : ∃ b1 b2 b3 b4, i = assemble i.opcode b1 b2 b3 b4 := by
  cases i with
  | nop | hlt => exact ⟨0, 0, 0, 0, rfl⟩
  | movLitReg b c | movRegReg b c | movRegPtrReg b c => exact ⟨b, c, 0, 0, rfl⟩
  | movLitRegWide w c | movMemReg w c => exact ⟨high w, low w, c, 0, by simp [assemble, Instr.opcode, cat_high_low]⟩
  | movRegMem b w | movLitMem b w => exact ⟨b, high w, low w, 0, by simp [assemble, Instr.opcode, cat_high_low]⟩
  | movLitMemWide v w =>
    exact ⟨high v, low v, high w, low w, by simp [assemble, Instr.opcode, cat_high_low]⟩
  | movLitOffReg w c d => exact ⟨high w, low w, c, d, by simp [assemble, Instr.opcode, cat_high_low]⟩

/-- The operand bytes of a format decode to what they assemble to; what follows them is left over. -/
theorem decode_operand_bytes (o : Opcode) (b1 b2 b3 b4 : Byte) (rest : List Byte) :
    decode (o.code :: ([b1, b2, b3, b4].take (o.size - 1) ++ rest)) = .ok (assemble o b1 b2 b3 b4, rest) := by
  cases o <;> rw [decode_code_cons] <;> simp [assemble, Opcode.size]

/-- At most four bytes that a list has are those read one by one. -/
theorem take_getD_four {tail : List Byte} {n : Nat} (h4 : n ≤ 4) (hn : n ≤ tail.length) :
    [tail.getD 0 0, tail.getD 1 0, tail.getD 2 0, tail.getD 3 0].take n = tail.take n := by
  apply List.ext_getElem (by simp; omega)
  intro k hk _
  have hkn : k < n := by simp at hk; omega
  have hlt : k < tail.length := by omega
  have : k = 0 ∨ k = 1 ∨ k = 2 ∨ k = 3 := by omega
  rcases this with rfl | rfl | rfl | rfl <;> simp [hlt]

theorem size_le_five (o : Opcode) : o.size ≤ 5 := by cases o <;> decide

/-- Settles O17: the instruction is assembled from four bytes, of which the decoder reads what its format takes. -/
theorem decodeOfEncodeGivesTheInstructionBack : Obligations.DecodeOfEncodeGivesTheInstructionBack := by
  intro i rest
  obtain ⟨b1, b2, b3, b4, hi⟩ := exists_eq_assemble i
  rw [hi, encode_assemble, List.cons_append, decode_operand_bytes]

/-- Settles O18: the operand bytes the decoder reads are the ones it drops. -/
theorem encodeOfDecodeGivesTheBytesBack : Obligations.EncodeOfDecodeGivesTheBytesBack := by
  rintro _ rest i h ⟨op, tail, rfl, hop⟩
  obtain ⟨hsize, rfl, rfl⟩ := decode_cons h
  have h5 := size_le_five (decodeOpcode op)
  rw [encode_assemble, code_decodeOpcode hop, take_getD_four (by omega) (by omega), List.cons_append,
    List.take_append_drop]

/-- Settles O16: disjoint domains make the width unique, injective maps the code. -/
theorem registerCodesAreUnambiguous : Obligations.RegisterCodesAreUnambiguous := by
  refine fun t c c' ht => ⟨fun r hr => ⟨wideOf_eq_none_of_byteOf ht hr, anyOf_eq_byte_iff.mpr hr⟩,
    fun w hw => ?_, fun q hq hq' => ?_⟩
  · have hb := byteOf_eq_none_of_wideOf ht hw
    exact ⟨hb, anyOf_eq_wide_iff.mpr ⟨hb, hw⟩⟩
  · obtain ⟨-, hbyte, hwide⟩ := regCodes_wf_iff.mp ht
    cases q with
    | byte r => exact code_unique_of_nodup hbyte (anyOf_eq_byte_iff.mp hq) (anyOf_eq_byte_iff.mp hq')
    | wide w =>
      exact code_unique_of_nodup hwide (anyOf_eq_wide_iff.mp hq).2 (anyOf_eq_wide_iff.mp hq').2

/-- Settles O15: the named codes by evaluation; a byte is no code when it differs from each of the fourteen. -/
theorem defaultRegisterCodesAreTheTable : Obligations.DefaultRegisterCodesAreTheTable := by
  refine ⟨rfl, rfl, rfl, rfl, rfl, rfl, rfl, rfl, rfl, rfl, rfl, rfl, rfl, rfl, fun c => ?_⟩
  simp [anyOf_eq_none_iff, RegCodes.byteOf, RegCodes.wideOf, List.lookup_eq_none_iff, defaultRegCodes,
    BitVec.toNat_eq]
  omega

/-- Settles O20, by running the decoder. -/
theorem handWrittenWordsDecode : Obligations.HandWrittenWordsDecode :=
  ⟨rfl, rfl, rfl, rfl, rfl, rfl, rfl, rfl, rfl, rfl, rfl⟩

/-! ### The step as the cycle of the spec (R105, R136) -/

/-- The two lines do the same from `s`, and a value leaves PC `k` further and nothing else changed. -/
def FetchesAlike {α : Type} (m m' : M α) (s : State) (k : Nat) : Prop :=
  m s = m' s ∧ ∀ v t, m s = .ok v t → t = s.advance k

section Cycle
variable {α β : Type} {s : State}

/-- Lines that fetch alike may be followed by lines that agree on the value fetched, from the state past it. -/
theorem FetchesAlike.bind {m m' : M α} {k : Nat} (h : FetchesAlike m m' s k) {f f' : α → M β}
    (hf : ∀ v, f v (s.advance k) = f' v (s.advance k)) : (m >>= f) s = (m' >>= f') s := by
  obtain ⟨heq, hpc⟩ := h
  rw [m_bind, m_bind, ← heq]
  cases hm : m s with
  | error c t => rfl
  | ok v t => rw [hpc v t hm]; exact hf v

/-- A line that only inspects the state keeps fetches alike. -/
theorem FetchesAlike.inspect {m m' : M α} {k : Nat} (h : FetchesAlike m m' s k) {f : α → M β}
    (hf : ∀ v t u t', f v t = .ok u t' → t' = t) : FetchesAlike (m >>= f) (m' >>= f) s k := by
  refine ⟨h.bind fun _ => rfl, fun u t' hu => ?_⟩
  rw [m_bind] at hu
  cases hm : m s with
  | error c t => simp [hm] at hu
  | ok v t =>
    rw [hm] at hu
    rw [hf v t u t' hu, h.2 v t hm]

/-- An operand byte that was read at PC is the one the fetch gives. -/
theorem operand8_fetchesAlike {b : Byte} (hb : b = s.peek s.pc) : FetchesAlike (operand8 b) fetch8 s 1 := by
  subst hb
  rcases fetch8_cases s with ⟨-, h⟩ | ⟨-, h⟩ | ⟨c, -, h⟩ <;> simp [FetchesAlike, operand8, h]

/-- An operand word that was read at PC is the one the fetch gives. -/
theorem operand16_fetchesAlike {w : Word} (hw : w = cat (s.peek s.pc) (s.peek (s.pc + 1#16))) :
    FetchesAlike (operand16 w) fetch16 s 2 := by
  subst hw
  rcases fetch16_cases s with ⟨-, h⟩ | ⟨-, h⟩ | ⟨c, -, h⟩ <;> simp [FetchesAlike, operand16, h]

/-! Classifying a code leaves the state as it was. -/

theorem classByte_state {c : RegCode} {t t' : State} {r : ByteReg} (h : classByte c t = .ok r t') : t' = t := by
  cases hc : t.cfg.regCodes.byteOf c <;> simp_all [classByte]

theorem classWide_state {c : RegCode} {t t' : State} {w : WideReg} (h : classWide c t = .ok w t') : t' = t := by
  cases hc : t.cfg.regCodes.wideOf c <;> simp_all [classWide]

theorem classAny_state {c : RegCode} {t t' : State} {q : AnyReg} (h : classAny c t = .ok q t') : t' = t := by
  cases hc : t.cfg.regCodes.anyOf c <;> simp_all [classAny]

theorem operandByteReg_fetchesAlike {c : RegCode} (hc : c = s.peek s.pc) :
    FetchesAlike (operandByteReg c) fetchByteReg s 1 :=
  (operand8_fetchesAlike hc).inspect fun _ _ _ _ => classByte_state

theorem operandWideReg_fetchesAlike {c : RegCode} (hc : c = s.peek s.pc) :
    FetchesAlike (operandWideReg c) fetchWideReg s 1 :=
  (operand8_fetchesAlike hc).inspect fun _ _ _ _ => classWide_state

theorem operandAnyReg_fetchesAlike {c : RegCode} (hc : c = s.peek s.pc) :
    FetchesAlike (operandAnyReg c) fetchAnyReg s 1 :=
  (operand8_fetchesAlike hc).inspect fun _ _ _ _ => classAny_state

/-- Reading a register before two lines that agree on its value. -/
theorem readWide_bind_congr {w : WideReg} {f f' : Word → M β} (h : f (s.getWide w) s = f' (s.getWide w) s) :
    (readWide w >>= f) s = (readWide w >>= f') s := h

/-- The instruction assembled from the bytes at PC does what its opcode's pseudocode does (R150 to R180). -/
theorem exec_assemble_eq_execute (o : Opcode) (s : State) :
    exec (assemble o (s.peek s.pc) (s.peek (s.pc + 1#16)) (s.peek (s.pc + 2#16)) (s.peek (s.pc + 3#16))) s =
      conclude (execute o s) := by
  cases o with
  | nop | hlt => rfl
  | movLitReg =>
    exact congrArg conclude <| (operand8_fetchesAlike rfl).bind fun _ =>
      (operandByteReg_fetchesAlike (by simp)).bind fun _ => rfl
  | movLitRegWide =>
    exact congrArg conclude <| (operand16_fetchesAlike rfl).bind fun _ =>
      (operandWideReg_fetchesAlike (by simp)).bind fun _ => rfl
  | movRegReg =>
    refine congrArg conclude <| (operandAnyReg_fetchesAlike rfl).bind fun q => ?_
    cases q with
    | byte r => exact (operandByteReg_fetchesAlike (by simp)).bind fun _ => rfl
    | wide w => exact (operandWideReg_fetchesAlike (by simp)).bind fun _ => rfl
  | movRegMem =>
    exact congrArg conclude <| (operandAnyReg_fetchesAlike rfl).bind fun _ =>
      (operand16_fetchesAlike (by simp [BitVec.add_assoc])).bind fun _ => rfl
  | movMemReg =>
    exact congrArg conclude <| (operand16_fetchesAlike rfl).bind fun _ =>
      (operandAnyReg_fetchesAlike (by simp)).bind fun _ => rfl
  | movLitMem =>
    exact congrArg conclude <| (operand8_fetchesAlike rfl).bind fun _ =>
      (operand16_fetchesAlike (by simp [BitVec.add_assoc])).bind fun _ => rfl
  | movLitMemWide =>
    exact congrArg conclude <| (operand16_fetchesAlike rfl).bind fun _ =>
      (operand16_fetchesAlike (by simp [BitVec.add_assoc])).bind fun _ => rfl
  | movRegPtrReg =>
    exact congrArg conclude <| (operandWideReg_fetchesAlike rfl).bind fun _ => readWide_bind_congr <|
      (operandAnyReg_fetchesAlike (by simp)).bind fun _ => rfl
  | movLitOffReg =>
    exact congrArg conclude <| (operand16_fetchesAlike rfl).bind fun _ =>
      (operandWideReg_fetchesAlike (by simp)).bind fun _ => readWide_bind_congr <|
        (operandAnyReg_fetchesAlike (by simp)).bind fun _ => rfl

end Cycle

/-! ### Operands that stop an instruction (R109, R131 to R134, R204) -/

section FailedFetch
variable {i : Instr} {s t : State} {c : Condition}

theorem firstOperandBytes_cases (i : Instr) :
    firstOperandBytes i = 0 ∨ firstOperandBytes i = 1 ∨ firstOperandBytes i = 2 := by
  cases i <;> simp [firstOperandBytes]

/-- An instruction that begins with a byte operand stops where the fetch of that byte fails. -/
theorem exec_of_fetch8_error (hi : firstOperandBytes i = 1) (h : fetch8 s = .error c t) :
    exec i s = .next (t.stopWith c) := by
  have hb : ∀ b, operand8 b s = .error c t := fun b => by simp [operand8, h]
  cases i with
  | movLitReg => simp [exec, execMovLitReg, hb]
  | movRegReg => simp [exec, execMovRegReg, operandAnyReg, hb]
  | movRegMem => simp [exec, execMovRegMem, operandAnyReg, hb]
  | movLitMem => simp [exec, execMovLitMem, hb]
  | movRegPtrReg => simp [exec, execMovRegPtrReg, operandWideReg, hb]
  | nop | hlt | movLitRegWide | movMemReg | movLitMemWide | movLitOffReg => simp [firstOperandBytes] at hi

/-- An instruction that begins with a word operand stops where the fetch of that word fails. -/
theorem exec_of_fetch16_error (hi : firstOperandBytes i = 2) (h : fetch16 s = .error c t) :
    exec i s = .next (t.stopWith c) := by
  have hw : ∀ w, operand16 w s = .error c t := fun w => by simp [operand16, h]
  cases i with
  | movLitRegWide => simp [exec, execMovLitRegWide, hw]
  | movMemReg => simp [exec, execMovMemReg, hw]
  | movLitMemWide => simp [exec, execMovLitMemWide, hw]
  | movLitOffReg => simp [exec, execMovLitOffReg, hw]
  | nop | hlt | movLitReg | movRegReg | movRegMem | movLitMem | movRegPtrReg => simp [firstOperandBytes] at hi

/-- A word fetch whose first byte is not served has moved PC. -/
theorem fetch16_miss {e : Cause} (hi : s.canInc s.pc 2 = true) (h : s.route s.pc = .error e) :
    fetch16 s = .error (.fault e) (s.advance 2) :=
  (fetch16_eq hi).trans (memRead16_first ((advance_route ..).trans h))

/-- A word fetch whose second byte is not served has moved PC. -/
theorem fetch16_second_miss {e : Cause} (hi : s.canInc s.pc 2 = true) (hs : s.serves s.pc = true)
    (h : s.route (s.pc + 1#16) = .error e) : fetch16 s = .error (.fault e) (s.advance 2) := by
  obtain ⟨x, hx⟩ := (serves_iff ..).mp hs
  have he : s.secondByteFault s.pc = some e := secondByteFault_of_miss (canInc_mono hi (by omega)) h
  exact (fetch16_eq hi).trans (memRead16_second ((advance_route ..).trans hx)
    ((advance_secondByteFault ..).trans he))

end FailedFetch

section InvalidCode
variable {s : State} {c : RegCode}

theorem copyFrom_byte_invalid (h : s.canFetch 1 = true) (hc : s.cfg.regCodes.byteOf c = none) (r : ByteReg) :
    copyFrom (.byte r) c s = .error (.fault (.invalidRegister c)) (s.advance 1) := by
  simp [copyFrom, operandByteReg_invalid h hc]

theorem copyFrom_wide_invalid (h : s.canFetch 1 = true) (hc : s.cfg.regCodes.wideOf c = none) (w : WideReg) :
    copyFrom (.wide w) c s = .error (.fault (.invalidRegister c)) (s.advance 1) := by
  simp [copyFrom, operandWideReg_invalid h hc]

end InvalidCode

/-- Settles O22: the opcode fetch is the same, and what it selects runs alike on the bytes at PC. -/
theorem stepIsTheCycleOfTheSpec : Obligations.StepIsTheCycleOfTheSpec := by
  intro s hs
  simp only [step, hs, cycle, m_bind]
  cases fetch8 s with
  | error c t => rfl
  | ok op t => exact exec_assemble_eq_execute (decodeOpcode op) t

/-- Settles O43: the codes before the invalid one classify, and the invalid one stops its own fetch. -/
theorem registerMovesStopOnAnInvalidCode : Obligations.RegisterMovesStopOnAnInvalidCode := by
  refine fun s c src => ⟨fun imm h hc => ?_, fun imm h hc => ?_, fun dst h hc => ?_, fun r h hr hc => ?_,
    fun w h hw hc => ?_⟩
  · have h1 : (s.advance 1).canFetch 1 = true := canFetch_advance h
    simp [exec, execMovLitReg, operand8_ok (canFetch_mono h (by omega)), operandByteReg_invalid h1 hc]
  · have h1 : (s.advance 2).canFetch 1 = true := canFetch_advance h
    simp [exec, execMovLitRegWide, operand16_ok (canFetch_mono h (by omega)), operandWideReg_invalid h1 hc]
  · simp [exec, execMovRegReg, operandAnyReg_invalid h hc]
  · have h1 : (s.advance 1).canFetch 1 = true := canFetch_advance h
    simp [exec, execMovRegReg, operandAnyReg_ok (canFetch_mono h (by omega)) hr, copyFrom_byte_invalid h1 hc]
  · have h1 : (s.advance 1).canFetch 1 = true := canFetch_advance h
    simp [exec, execMovRegReg, operandAnyReg_ok (canFetch_mono h (by omega)) hw, copyFrom_wide_invalid h1 hc]

/-- Settles O44: the operands before the invalid code are fetched, and no data access comes before the codes. -/
theorem memoryMovesStopOnAnInvalidCode : Obligations.MemoryMovesStopOnAnInvalidCode := by
  refine fun s c other a w => ⟨fun h hc => ?_, fun h hc => ?_, fun h hc => ?_, fun h hw hc => ?_, fun h hc => ?_,
    fun h hw hc => ?_⟩
  · simp [exec, execMovRegMem, operandAnyReg_invalid h hc]
  · have h1 : (s.advance 2).canFetch 1 = true := canFetch_advance h
    simp [exec, execMovMemReg, operand16_ok (canFetch_mono h (by omega)), operandAnyReg_invalid h1 hc]
  · simp [exec, execMovRegPtrReg, operandWideReg_invalid h hc]
  · have h1 : (s.advance 1).canFetch 1 = true := canFetch_advance h
    simp [exec, execMovRegPtrReg, operandWideReg_ok (canFetch_mono h (by omega)) hw, operandAnyReg_invalid h1 hc]
  · have h1 : (s.advance 2).canFetch 1 = true := canFetch_advance h
    simp [exec, execMovLitOffReg, operand16_ok (canFetch_mono h (by omega)), operandWideReg_invalid h1 hc]
  · have h1 : (s.advance 2).canFetch 1 = true := canFetch_advance (canFetch_mono h (by omega))
    have h2 : (s.advance 3).canFetch 1 = true := canFetch_advance h
    simp [exec, execMovLitOffReg, operand16_ok (canFetch_mono h (by omega)), operandWideReg_ok h1 hw,
      operandAnyReg_invalid h2 hc]

/-- Settles O45: the first operand is one byte or two, and each way its fetch fails is the way the instruction stops. -/
theorem failedOperandFetchStopsTheInstruction : Obligations.FailedOperandFetchStopsTheInstruction := by
  intro i s hne
  rcases firstOperandBytes_cases i with h0 | h1 | h2
  · exact absurd h0 hne
  · rw [h1]
    exact ⟨fun hi => exec_of_fetch8_error h1 (fetch8_overflow hi),
      fun c hi hc => exec_of_fetch8_error h1 (fetch8_miss hi hc), fun c hk => absurd hk (by omega)⟩
  · rw [h2]
    exact ⟨fun hi => exec_of_fetch16_error h2 (fetch16_overflow hi),
      fun c hi hc => exec_of_fetch16_error h2 (fetch16_miss hi hc),
      fun c _ hi hs hc => exec_of_fetch16_error h2 (fetch16_second_miss hi hs hc)⟩

end Sys2Proof.Machine
end

section
/-!
PROOFS. The execution cycle of 40_execution_cycle.md: the fetches (R131 to R133), the step of a running and of a stopped
engine (R130, R136 to R138), and free running (R139, R140).
-/

namespace Sys2Proof.Machine

/-! ### Fetches -/

/-- R131: an increment fails exactly where the sum passes 0xFFFF and does not wrap. -/
theorem canInc_eq_false_iff (s : State) (a : Word) (k : Nat) :
    s.canInc a k = false ↔ s.cfg.wrap16 = false ∧ 0xFFFF < a.toNat + k := by
  rw [← Bool.not_eq_true, canInc_iff, not_or, Bool.not_eq_true, Nat.not_le]

/-- A word fetch whose two bytes are served gives the word they make. -/
theorem fetch16_of_route {s : State} {x y : Slot} (hi : s.canInc s.pc 2 = true) (hx : s.route s.pc = .ok x)
    (hy : s.route (s.pc + 1#16) = .ok y) :
    fetch16 s = .ok (cat (s.slotByte x) (s.slotByte y)) (s.advance 2) := by
  have hw : (s.advance 2).WordAt s.pc x y := (advance_wordAt ..).mpr ⟨hx, canInc_mono hi (by omega), hy⟩
  rw [fetch16_eq hi, memRead16_ok hw, advance_slotByte, advance_slotByte]

/-- Settles O12: the increment fails before anything else happens, and the read comes after PC has moved. -/
theorem byteFetchMovesPcBeforeItReads : Obligations.ByteFetchMovesPcBeforeItReads := by
  refine fun s => ⟨fun hpc hwrap => ?_, fun hpc => ?_⟩
  · have hi : s.canInc s.pc 1 = false := (canInc_eq_false_iff ..).mpr ⟨hwrap, by simp [hpc]⟩
    rw [fetch8_overflow hi, hpc]
  · have hi : s.canInc s.pc 1 = true := (canInc_one_iff ..).mpr hpc.symm
    exact ⟨fun x hx => fetch8_of_route hi hx, fun c hc => fetch8_miss hi hc⟩

/-- Settles O13: the increment by two comes before both reads, and either of them may fail. -/
theorem wordFetchMovesPcByTwoEvenWhenItFails : Obligations.WordFetchMovesPcByTwoEvenWhenItFails := by
  refine fun s => ⟨fun hpc hwrap => ?_, fun hpc => ?_⟩
  · exact fetch16_overflow ((canInc_eq_false_iff ..).mpr ⟨hwrap, by omega⟩)
  · have hi : s.canInc s.pc 2 = true := (canInc_iff ..).mpr (hpc.symm.imp_right fun _ => by omega)
    exact ⟨fun x y hx hy => fetch16_of_route hi hx hy, fun c hc => fetch16_miss hi hc,
      fun x c hx hc => fetch16_second_miss hi ((serves_iff ..).mpr ⟨x, hx⟩) hc⟩

/-! ### The step -/

/-- R136: where the opcode byte can be fetched, a step runs the instruction it selects on the bytes after it. -/
theorem step_of_canFetch {s : State} (hs : s.status = .running) (h : s.canFetch 1 = true) :
    step s = exec ((s.advance 1).instrAt (s.peek s.pc)) (s.advance 1) := by
  simp [step, hs, fetch8_ok h]

/-- The instruction the decoder reads from the five bytes at PC is the one the cycle assembles. -/
theorem eq_instrAt_of_decode {s : State} {i : Instr} {rest : List Byte}
    (h : decode [s.peek s.pc, s.peek (s.pc + 1#16), s.peek (s.pc + 2#16), s.peek (s.pc + 3#16),
      s.peek (s.pc + 4#16)] = .ok (i, rest)) :
    i = (s.advance 1).instrAt (s.peek s.pc) := by
  obtain ⟨-, hi, -⟩ := decode_cons h
  simpa [State.instrAt, BitVec.add_assoc] using hi

/-- R201, R205, R206: the causes a step can record. -/
theorem ofStep_iff (c : Cause) : c.ofStep = true ↔
    (∃ b, c = .invalidRegister b) ∨ (∃ a, c = .outOfBounds a) ∨ ∃ a, c = .addressOverflow a := by
  cases c <;> simp [Cause.ofStep]

/-- R40: the statuses a run can show. -/
theorem legal_iff (st : Status) :
    st.legal = true ↔ st = .running ∨ st = .halted ∨ ∃ c, st = .faulted c ∧ c.ofStep = true := by
  cases st <;> simp [Status.legal]

/-- Settles O23: the step concludes the cycle of the spec, so it has a next state, whose status is legal. -/
theorem runningEngineAlwaysHasANextState : Obligations.RunningEngineAlwaysHasANextState := by
  intro s hs
  obtain ⟨t, ht⟩ := conclude_next (cycle s)
  have hstep : step s = .next t := (stepIsTheCycleOfTheSpec s hs).trans ht
  refine ⟨t, hstep, ?_⟩
  simpa only [ofStep_iff] using (legal_iff _).mp (step_status_legal hstep)

/-- Settles O21: the decoder and the cycle select the same instruction, which runs past the opcode byte. -/
theorem stepRunsTheDecodedInstruction : Obligations.StepRunsTheDecodedInstruction := fun s i rest hs h hd => by
  rw [step_of_canFetch hs h, ← eq_instrAt_of_decode hd]

/-- Settles O24: a state with a step is running. -/
theorem stoppedEngineHasNoStep : Obligations.StoppedEngineHasNoStep :=
  fun _ hs _ h => hs (running_of_step h)

/-! ### Free running -/

/-- R139: one step, then the rest of the run. -/
theorem run_succ_of_step {s t : State} (h : step s = .next t) (n : Nat) : run (n + 1) s = run n t := by
  simp [run, h]

/-- A run stays where there is no step. -/
theorem run_of_no_step {s : State} (h : ∀ t, step s ≠ .next t) (n : Nat) : run n s = s := by
  cases n with
  | zero => rfl
  | succ n =>
    cases hs : step s with
    | next t => exact absurd hs (h t)
    | fault | refused => simp [run, hs]

/-- Running on from where a run has come to is one longer run. -/
theorem run_add (n m : Nat) (s : State) : run (n + m) s = run m (run n s) := by
  induction n generalizing s with
  | zero => simp [run]
  | succ n ih =>
    by_cases h : ∃ t, step s = .next t
    · obtain ⟨t, ht⟩ := h
      rw [Nat.add_right_comm, run_succ_of_step ht, run_succ_of_step ht, ih]
    · have hstay := run_of_no_step (not_exists.mp h)
      rw [hstay, hstay, hstay]

/-- Settles O31: a run unfolds by its first step, and one that has come to a stop stays there as it is run on. -/
theorem runGoesStepByStepAndStaysAtItsStop : Obligations.RunGoesStepByStepAndStaysAtItsStop := by
  refine ⟨fun n s t _ h => run_succ_of_step h n, fun n m s hstop => ?_⟩
  rw [run_add, run_of_no_step (stoppedEngineHasNoStep _ hstop)]

end Sys2Proof.Machine
end

section
/-!
PROOFS. NOP, HLT and the unassigned opcodes of 41_control.md (R150, R152, R154), and where a step halts (R200, R201).
-/

namespace Sys2Proof.Machine

/-! ### The opcode map (R110, R111) -/

/-- R111: a byte with no matching variant is NOP. -/
theorem decodeOpcode_of_unassigned {op : Byte} (h : assignedOpcode op = false) : decodeOpcode op = .nop := by
  have hnone : allOpcodes.find? (fun o => o.code == op) = none :=
    List.find?_eq_none.mpr (List.any_eq_false.mp h)
  rw [decodeOpcode, hnone, Option.getD_none]

/-- R154: the unassigned opcode bytes are two ranges. -/
theorem assignedOpcode_eq_false_iff (op : Byte) : assignedOpcode op = false ↔
    (0x01 ≤ op.toNat ∧ op.toNat ≤ 0x0F) ∨ (0x19 ≤ op.toNat ∧ op.toNat ≤ 0xFE) := by
  simp [assignedOpcode, allOpcodes, Opcode.code, BitVec.toNat_eq]
  omega

/-- An opcode but NOP is decoded from its own code only. -/
theorem decodeOpcode_eq_iff {o : Opcode} (ho : o ≠ .nop) (op : Byte) : decodeOpcode op = o ↔ op = o.code := by
  refine ⟨fun h => ?_, fun h => h ▸ decodeOpcode_code o⟩
  cases hop : assignedOpcode op with
  | false => exact absurd (h.symm.trans (decodeOpcode_of_unassigned hop)) ho
  | true => rw [← h, code_decodeOpcode hop]

/-- The cycle assembles HLT from the byte 0xFF only. -/
theorem instrAt_eq_hlt_iff (s : State) (op : Byte) : s.instrAt op = .hlt ↔ op = 0xFF := by
  have hasm : s.instrAt op = .hlt ↔ decodeOpcode op = .hlt := by
    unfold State.instrAt
    cases decodeOpcode op <;> simp [assemble]
  exact hasm.trans (decodeOpcode_eq_iff (by decide) op)

section Unassigned
variable {op : Byte} (h : assignedOpcode op = false)
include h

/-- R154: the decoder takes no operand byte after an unassigned opcode. -/
theorem decode_unassigned (rest : List Byte) : decode (op :: rest) = .ok (.nop, rest) := by
  simp [decode, decodeOpcode_of_unassigned h, assemble, Opcode.size]

theorem instrAt_unassigned (s : State) : s.instrAt op = .nop := by
  simp [State.instrAt, decodeOpcode_of_unassigned h, assemble]

end Unassigned

/-! ### The opcode fetch and what it selects (R136) -/

/-- A byte fetch gives a value exactly where the byte at PC can be fetched: that byte, with PC past it. -/
theorem fetch8_eq_ok_iff {s t : State} {op : Byte} :
    fetch8 s = .ok op t ↔ s.canFetch 1 = true ∧ op = s.peek s.pc ∧ t = s.advance 1 := by
  refine ⟨fun h => ?_, ?_⟩
  · rcases fetch8_cases s with ⟨hc, hf⟩ | ⟨-, hf⟩ | ⟨c, -, hf⟩ <;> rw [hf] at h
    · cases h
      exact ⟨hc, rfl, rfl⟩
    all_goals cases h
  · rintro ⟨hc, rfl, rfl⟩
    exact fetch8_ok hc

theorem exec_nop (s : State) : exec .nop s = .next s := rfl

/-- R200, R201: of all instructions HLT alone halts a running engine. -/
theorem exec_halts_iff {i : Instr} {s t : State} (hs : s.status = .running) (h : exec i s = .next t) :
    t.status = .halted ↔ i = .hlt := by
  by_cases hi : i = .hlt
  · subst hi
    simp [eq_of_exec_hlt h]
  · rcases exec_status hi h with hst | ⟨e, -, hst⟩ <;> simp [hst, hs, hi]

/-! ### The statements -/

/-- Settles O32: NOP concludes a line that does nothing, HLT one that raises Halt. -/
theorem nopAndHltComplete : Obligations.NopAndHltComplete := fun s => ⟨exec_nop s, exec_hlt s⟩

/-- Settles O19: the byte is unassigned, so the cycle runs NOP past it, and NOP changes nothing. -/
theorem unassignedOpcodeExecutesAsNop : Obligations.UnassignedOpcodeExecutesAsNop := by
  intro op hop
  have hun := (assignedOpcode_eq_false_iff op).mpr hop
  refine ⟨decode_unassigned hun, fun s t hs hf => ?_⟩
  obtain ⟨hc, rfl, rfl⟩ := fetch8_eq_ok_iff.mp hf
  have hstep : step s = exec .nop (s.advance 1) := by rw [step_of_canFetch hs hc, instrAt_unassigned hun]
  exact ⟨rfl, hstep, hstep.trans (exec_nop _)⟩

/-- Settles O25: a failed opcode fetch faults, and of the instructions fetched HLT alone halts, which is the byte
0xFF. -/
theorem onlyHltHalts : Obligations.OnlyHltHalts := by
  intro s t hs h
  rcases step_cases hs h with ⟨e, u, -, -, hf, rfl⟩ | ⟨hc, hx⟩
  · have hc : s.canFetch 1 ≠ true := fun hc => by simp [fetch8_ok hc] at hf
    simp [hc]
  · have hiff := exec_halts_iff (s := s.advance 1) hs hx
    refine ⟨by rw [hiff, instrAt_eq_hlt_iff, and_iff_right hc], fun hhalt => ?_⟩
    rw [hiff.mp hhalt] at hx
    exact eq_of_exec_hlt hx

end Sys2Proof.Machine
end

section
/-!
PROOFS. The register moves of 42_move_register.md that complete (R160, R162, R164): each operand is fetched in turn, and
the destination is written in the state whose PC is past them all.
-/

namespace Sys2Proof.Machine

section Copy
variable {s : State} {src dst : RegCode}

/-- R164 for a byte source: the copy fetches the destination's code and writes the source's byte. -/
theorem copyFrom_byte_ok {q : ByteReg} (h : s.canFetch 1 = true) (hq : s.cfg.regCodes.byteOf dst = some q)
    (r : ByteReg) : copyFrom (.byte r) dst s = .ok () ((s.advance 1).setByte q (s.getByte r)) := by
  simp [copyFrom, operandByteReg_ok h hq]

/-- R164, D8 for a wide source: the word written is the one held once PC is past the destination's code. -/
theorem copyFrom_wide_ok {u : WideReg} (h : s.canFetch 1 = true) (hu : s.cfg.regCodes.wideOf dst = some u)
    (w : WideReg) : copyFrom (.wide w) dst s = .ok () ((s.advance 1).setWide u ((s.advance 1).getWide w)) := by
  simp [copyFrom, operandWideReg_ok h hu]

/-- MOV_REG_REG with its source fetched is the copy from that source. -/
theorem exec_movRegReg_of_fetch {q : AnyReg} (h : s.canFetch 1 = true) (hq : s.cfg.regCodes.anyOf src = some q)
    (dst : RegCode) : exec (.movRegReg src dst) s = conclude (copyFrom q dst (s.advance 1)) := by
  simp [exec, execMovRegReg, operandAnyReg_ok h hq]

end Copy

/-! ### The statements -/

/-- Settles O33: the literal is fetched, then the code, which classifies, and the write cannot fail. -/
theorem movLitRegWritesTheLiteral : Obligations.MovLitRegWritesTheLiteral := by
  intro s imm dst r h hr
  have himm := operand8_ok (canFetch_mono h (by omega : 1 ≤ 2)) imm
  have hdst := operandByteReg_ok (s := s.advance 1) (canFetch_advance h) hr
  simp [exec, execMovLitReg, himm, hdst]

/-- Settles O34: the write comes after all three bytes are fetched, so that a literal for PC is kept. -/
theorem movLitRegWideWritesTheLiteral : Obligations.MovLitRegWideWritesTheLiteral := by
  intro s imm dst w h hw
  have himm := operand16_ok (canFetch_mono h (by omega : 2 ≤ 3)) imm
  have hdst := operandWideReg_ok (s := s.advance 2) (canFetch_advance h) hw
  simp [exec, execMovLitRegWide, himm, hdst]

/-- Settles O35: after the source's code comes the copy at its width, which fetches the one code left. -/
theorem movRegRegCopiesAtTheSourcesWidth : Obligations.MovRegRegCopiesAtTheSourcesWidth := by
  intro s src dst h
  have h1 : s.canFetch 1 = true := canFetch_mono h (by omega)
  have h2 : (s.advance 1).canFetch 1 = true := canFetch_advance h
  refine ⟨fun r q hr hq => ?_, fun w u hw hu => ?_⟩
  · rw [exec_movRegReg_of_fetch h1 hr, copyFrom_byte_ok h2 hq, conclude_ok, advance_advance, advance_getByte]
  · rw [exec_movRegReg_of_fetch h1 hw, copyFrom_wide_ok h2 hu, conclude_ok, advance_advance]

end Sys2Proof.Machine
end

section
/-!
PROOFS. The memory moves of 43_move_memory.md (R170 to R180): with its operands fetched a move is one store or one load
in the state whose PC is past them all, which completes (R72, R73, R135) or fails (R204).
-/

namespace Sys2Proof.Machine

/-! ### A load of either width (R135) -/

section Load
variable {s : State} {a : Word}

theorem loadInto_byte_ok {x : Slot} (hx : s.route a = .ok x) (r : ByteReg) :
    loadInto (.byte r) a s = .ok () (s.setByte r (s.slotByte x)) := by
  simp [loadInto, memRead8_ok hx]

theorem loadInto_wide_ok {x y : Slot} (hw : s.WordAt a x y) (w : WideReg) :
    loadInto (.wide w) a s = .ok () (s.setWide w (cat (s.slotByte x) (s.slotByte y))) := by
  simp [loadInto, memRead16_ok hw]

/-- R72, R204: an access fails at its first byte, or a word access at its second. -/
theorem accessFault_eq_some_iff {q : AnyReg} {c : Cause} : s.accessFault q a = some c ↔
    s.route a = .error c ∨ ∃ w x, q = .wide w ∧ s.route a = .ok x ∧ s.secondByteFault a = some c := by
  cases hr : s.route a <;> cases q <;> simp [State.accessFault, hr]

/-- R204: a load whose access fails raises that failure and writes no register. -/
theorem loadInto_error {q : AnyReg} {c : Cause} (h : s.accessFault q a = some c) :
    loadInto q a s = .error (.fault c) s := by
  rcases accessFault_eq_some_iff.mp h with hc | ⟨w, x, rfl, hx, hc⟩
  · cases q with
    | byte r => simp [loadInto, memRead8_error hc]
    | wide w => simp [loadInto, memRead16_first hc]
  · simp [loadInto, memRead16_second hx hc]

@[simp] theorem advance_accessFault (s : State) (k : Nat) (q : AnyReg) (a : Word) :
    (s.advance k).accessFault q a = s.accessFault q a := by
  simp [State.accessFault]

end Load

/-! ### How a load past its operands ends its instruction -/

section Conclude
variable {s : State} {a : Word} (k : Nat)

theorem conclude_loadInto_byte {x : Slot} (hx : s.route a = .ok x) (r : ByteReg) :
    conclude (loadInto (.byte r) a (s.advance k)) = .next ((s.advance k).setByte r (s.slotByte x)) := by
  rw [loadInto_byte_ok ((advance_route ..).trans hx), conclude_ok, advance_slotByte]

theorem conclude_loadInto_wide {x y : Slot} (hw : s.WordAt a x y) (w : WideReg) :
    conclude (loadInto (.wide w) a (s.advance k)) =
      .next ((s.advance k).setWide w (cat (s.slotByte x) (s.slotByte y))) := by
  rw [loadInto_wide_ok ((advance_wordAt ..).mpr hw), conclude_ok, advance_slotByte, advance_slotByte]

theorem conclude_loadInto_error {q : AnyReg} {c : Cause} (h : s.accessFault q a = some c) :
    conclude (loadInto q a (s.advance k)) = .next ((s.advance k).stopWith (.fault c)) := by
  rw [loadInto_error ((advance_accessFault ..).trans h), conclude_error]

end Conclude

/-! ### After a store that completes -/

/-- A word written is a word of the state it leaves, under the same configuration. -/
theorem wordAt_of_memWrite16 {s t : State} {a v : Word} (h : memWrite16 a v s = .ok () t) :
    t.cfg = s.cfg ∧ ∃ x y, t.WordAt a x y := by
  obtain ⟨x, y, hxy, rfl⟩ := eq_setSlot_of_memWrite16 h
  exact ⟨rfl, x, y, by simpa using hxy⟩

/-- An instruction that leaves the engine running has raised nothing. -/
theorem eq_ok_of_conclude_running {r : EStateM.Result Condition State Unit} {t : State}
    (h : conclude r = .next t) (ht : t.status = .running) : r = .ok () t := by
  cases r with
  | ok v u => simpa using h
  | error c u =>
    obtain rfl : u.stopWith c = t := by simpa using h
    cases c <;> simp at ht

/-! ### Loads with their operands fetched -/

section Operands
variable {s : State} {dst : RegCode} {q : AnyReg}

/-- MOV_MEM_REG with both operands fetched is its load. -/
theorem exec_movMemReg_of_fetch (h : s.canFetch 3 = true) (hq : s.cfg.regCodes.anyOf dst = some q) (addr : Word) :
    exec (.movMemReg addr dst) s = conclude (loadInto q addr (s.advance 3)) := by
  have haddr := operand16_ok (canFetch_mono h (by omega : 2 ≤ 3)) addr
  have hdst := operandAnyReg_ok (s := s.advance 2) (canFetch_advance h) hq
  simp [exec, execMovMemReg, haddr, hdst]

/-- MOV_REG_PTR_REG with both operands fetched is its load; the pointer is read with PC past its own code only. -/
theorem exec_movRegPtrReg_of_fetch {ptr : RegCode} {p : WideReg} (h : s.canFetch 2 = true)
    (hp : s.cfg.regCodes.wideOf ptr = some p) (hq : s.cfg.regCodes.anyOf dst = some q) :
    exec (.movRegPtrReg ptr dst) s = conclude (loadInto q ((s.advance 1).getWide p) (s.advance 2)) := by
  have hptr := operandWideReg_ok (canFetch_mono h (by omega : 1 ≤ 2)) hp
  have hdst := operandAnyReg_ok (s := s.advance 1) (canFetch_advance h) hq
  simp [exec, execMovRegPtrReg, hptr, hdst]

/-- MOV_LIT_OFF_REG with its operands fetched is its load; the offset is read with PC past its own code only. -/
theorem exec_movLitOffReg_of_fetch {off : RegCode} {o : WideReg} (h : s.canFetch 4 = true)
    (ho : s.cfg.regCodes.wideOf off = some o) (hq : s.cfg.regCodes.anyOf dst = some q) (base : Word) :
    exec (.movLitOffReg base off dst) s =
      conclude (loadInto q (offsetAddress base ((s.advance 3).getWide o)) (s.advance 4)) := by
  have hbase := operand16_ok (canFetch_mono h (by omega : 2 ≤ 4)) base
  have hoff := operandWideReg_ok (s := s.advance 2) (canFetch_advance (canFetch_mono h (by omega : 2 + 1 ≤ 4))) ho
  have hdst := operandAnyReg_ok (s := s.advance 3) (canFetch_advance h) hq
  simp [exec, execMovLitOffReg, hbase, hoff, hdst]

end Operands

/-! ### The statements -/

/-- Settles O36: the store runs past both operands, so that a PC source is stored as it stands there (D8). -/
theorem movRegMemStoresAtTheSourcesWidth : Obligations.MovRegMemStoresAtTheSourcesWidth := by
  refine fun s src addr h => ⟨fun r x hr hx => ?_, fun w x y hw hxy => ?_⟩
  · rw [exec_movRegMem_of_fetch h hr, storeFrom_byte, memWrite8_ok ((advance_route ..).trans hx), conclude_ok,
      advance_getByte]
  · rw [exec_movRegMem_of_fetch h hw, storeFrom_wide, memWrite16_ok ((advance_wordAt ..).mpr hxy), conclude_ok]

/-- Settles O37: the load runs at the address the instruction names. -/
theorem movMemRegLoadsAtTheDestinationsWidth : Obligations.MovMemRegLoadsAtTheDestinationsWidth := by
  refine fun s addr dst h => ⟨fun r x hr hx => ?_, fun w x y hw hxy => ?_⟩
  · rw [exec_movMemReg_of_fetch h hr, conclude_loadInto_byte 3 hx]
  · rw [exec_movMemReg_of_fetch h hw, conclude_loadInto_wide 3 hxy]

/-- Settles O38: each literal store is one memory write past its operands. -/
theorem literalStoresWriteTheirLiteral : Obligations.LiteralStoresWriteTheirLiteral := by
  refine ⟨fun s imm addr x h hx => ?_, fun s imm addr x y h hxy => ?_⟩
  · rw [exec_movLitMem_of_fetch h, memWrite8_ok ((advance_route ..).trans hx), conclude_ok]
  · rw [exec_movLitMemWide_of_fetch h, memWrite16_ok ((advance_wordAt ..).mpr hxy), conclude_ok]

/-- Settles O39: the load runs at the address the pointer held before the destination was fetched. -/
theorem movRegPtrRegLoadsThroughThePointer : Obligations.MovRegPtrRegLoadsThroughThePointer := by
  refine fun s ptr dst p h hp => ⟨fun r x hr hx => ?_, fun w x y hw hxy => ?_⟩
  · rw [exec_movRegPtrReg_of_fetch h hp hr, conclude_loadInto_byte 2 hx]
  · rw [exec_movRegPtrReg_of_fetch h hp hw, conclude_loadInto_wide 2 hxy]

/-- Settles O40: the load runs at the sum taken before the destination was fetched. -/
theorem movLitOffRegLoadsFromBasePlusOffset : Obligations.MovLitOffRegLoadsFromBasePlusOffset := by
  refine fun s base off dst o h ho => ⟨fun r x hr hx => ?_, fun w x y hw hxy => ?_⟩
  · rw [exec_movLitOffReg_of_fetch h ho hr, conclude_loadInto_byte 4 hx]
  · rw [exec_movLitOffReg_of_fetch h ho hw, conclude_loadInto_wide 4 hxy]

/-- Settles O42: a store that leaves the engine running has written its whole word, which reads back (O10) from the two
bytes that the load reads (O37). -/
theorem storedWordLoadsBackIntoAnyWideRegister : Obligations.StoredWordLoadsBackIntoAnyWideRegister := by
  intro s t src dst addr w u hs hfetch hsrc hdst hexec hrun hfetch'
  rw [exec_movRegMem_of_fetch hfetch hsrc, storeFrom_wide] at hexec
  have hwrite := eq_ok_of_conclude_running hexec hrun
  have hinv : (s.advance 3).Inv := ⟨hs.config, hs.memory, hs.status⟩
  have hread := (writtenWordReadsBackHighByteFirst _ _ _ _ hinv hwrite).1
  obtain ⟨hcfg, x, y, hxy⟩ := wordAt_of_memWrite16 hwrite
  have hword : cat (t.slotByte x) (t.slotByte y) = (s.advance 3).getWide w := by
    rw [memRead16_ok hxy] at hread
    exact (EStateM.Result.ok.inj hread).1
  have hdst' : t.cfg.regCodes.anyOf dst = some (.wide u) := by rw [hcfg, advance_cfg, hdst]
  rw [(movMemRegLoadsAtTheDestinationsWidth t addr dst hfetch').2 u x y hdst' hxy, hword]

/-- Settles O46: each of the three loads is one access past its operands, whose failure ends the instruction. -/
theorem failedLoadLeavesItsDestination : Obligations.FailedLoadLeavesItsDestination := by
  refine fun s dst q c hq => ⟨fun addr h hc => ?_, fun ptr p h hp hc => ?_, fun base off o h ho hc => ?_⟩
  · rw [exec_movMemReg_of_fetch h hq, conclude_loadInto_error 3 hc]
  · rw [exec_movRegPtrReg_of_fetch h hp hq, conclude_loadInto_error 2 hc]
  · rw [exec_movLitOffReg_of_fetch h ho hq, conclude_loadInto_error 4 hc]

end Sys2Proof.Machine
end

section
/-!
PROOFS. What a faulting step has changed (R203 (b), (c)): it stops as its instruction does, like a failed fetch or with
the first byte of a word store written (R73).
-/

namespace Sys2Proof.Machine

/-! ### What an instruction that stops with a fault has changed -/

section ExecFault
variable {i : Instr} {s t : State} {c : Condition}

/-- R203 (b): a fault changes no register but PC. -/
theorem ExecFault.registers (h : ExecFault i s c t) : (∀ r, t.getByte r = s.getByte r) ∧ t.sp = s.sp := by
  rcases h with ⟨ht, -⟩ | ⟨a, x, u, v, e, -, -, -, -, hu, rfl⟩
  · exact ⟨ht.getByte, ht.sp⟩
  · exact ⟨fun r => (setSlot_getByte u r v x).trans (hu.getByte r), hu.sp⟩

/-- R73, R203 (c): the one byte a fault can have changed is the first byte of a word store whose second byte failed with
that same cause. -/
theorem ExecFault.changed_byte {e : Cause} (h : ExecFault i s (.fault e) t) {x : Slot}
    (hx : t.slotByte x ≠ s.slotByte x) :
    ∃ a, storeAddresses s.cfg.regCodes i = [a, a + 1#16] ∧ s.route a = .ok x ∧ s.secondByteFault a = some e := by
  rcases h with ⟨ht, -⟩ | ⟨a, y, u, v, e', ha, hy, hsecond, he, hu, rfl⟩
  · exact absurd (ht.slotByte x) hx
  · cases he
    obtain rfl : x = y := by_contra fun hne => hx ((setSlot_slotByte_other u v hne).trans (hu.slotByte x))
    exact ⟨a, ha, hy, hsecond⟩

/-- A fault from the state after the opcode fetch is one from the state before it. -/
theorem ExecFault.of_advance {k : Nat} (h : ExecFault i (s.advance k) c t) : ExecFault i s c t := by
  rcases h with h | ⟨a, x, u, v, e, ha, hx, hsecond, hc, hu, ht⟩
  · exact .inl (h.after (.advance s k))
  · exact .inr ⟨a, x, u, v, e, ha, (advance_route s k a).symm.trans hx,
      (advance_secondByteFault s k a).symm.trans hsecond, hc, (SameButPc.advance s k).trans hu, ht⟩

end ExecFault

/-! ### What ends Faulted -/

section Faulted
variable {s t : State} {c : Cause} (hs : s.status = .running) (ht : t.status = .faulted c)
include hs ht

/-- An instruction run on a running engine ends Faulted only by raising that very cause. -/
theorem execFault_of_exec_faulted {i : Instr} (h : exec i s = .next t) :
    ∃ u, ExecFault i s (.fault c) u ∧ t = u.stopWith (.fault c) := by
  have hi : i ≠ .hlt := by
    rintro rfl
    simp [eq_of_exec_hlt h] at ht
  rcases exec_cases hi h with hf | ⟨e, u, -, hu, rfl⟩
  · simp [hf.status, hs] at ht
  · obtain rfl : e = c := Status.faulted.inj ht
    exact ⟨u, hu, rfl⟩

/-- A step that ends Faulted stops as the instruction at PC does, also when its opcode fetch fails. -/
theorem execFault_of_step_faulted (h : step s = .next t) :
    ∃ u, ExecFault ((s.advance 1).instrAt (s.peek s.pc)) s (.fault c) u ∧ t = u.stopWith (.fault c) := by
  rcases step_cases hs h with ⟨e, u, he, hu, -, rfl⟩ | ⟨-, hx⟩
  · obtain rfl : e = c := Status.faulted.inj ht
    exact ⟨u, .inl ⟨hu, e, rfl, he⟩, rfl⟩
  · obtain ⟨u, hu, rfl⟩ := execFault_of_exec_faulted (s := s.advance 1) hs ht hx
    exact ⟨u, hu.of_advance, rfl⟩

end Faulted

/-! ### The statement -/

/-- Settles O26: the step stops as the instruction at PC does, and the stop itself changes the status only. -/
theorem faultingStepLeavesRegistersAndAllButOneByte :
    Obligations.FaultingStepLeavesRegistersAndAllButOneByte := by
  intro s t c hs h ht
  obtain ⟨u, hu, rfl⟩ := execFault_of_step_faulted hs ht h
  obtain ⟨hbyte, hsp⟩ := hu.registers
  simp only [stopWith_getByte, stopWith_sp, stopWith_slotByte]
  exact ⟨hbyte, hsp, fun x hx => hu.changed_byte hx⟩

end Sys2Proof.Machine
end

section
/-!
PROOFS. When reset raises NoMemory (R230).
-/

namespace Sys2Proof.Machine

/-- R230: over an empty bus reset raises NoMemory, whatever the devices. -/
theorem resetOn_of_regions_eq_nil {c : Config} (devices : List Device) (h : c.regions = []) :
    resetOn c devices = .fault .noMemory := by
  simp [resetOn, busStart_none.mpr h, busEnd_none.mpr h]

/-- Over a bus with a region reset raises no fault: both bounds exist, and each check that is left refuses. -/
theorem resetOn_ne_fault {c : Config} (devices : List Device) (h : c.regions ≠ []) (f : Fault) :
    resetOn c devices ≠ .fault f := by
  obtain ⟨lo, hi, hlo, hhi⟩ := exists_bus_bounds h
  simp only [resetOn, hlo, hhi]
  split_ifs <;> exact nofun

/-- Settles O52: only the branch of reset without bounds raises a fault, and an empty bus is the one without them. -/
theorem resetRaisesNoMemoryExactlyOverAnEmptyBus : Obligations.ResetRaisesNoMemoryExactlyOverAnEmptyBus :=
  fun _ devices => ⟨resetOn_of_regions_eq_nil devices,
    fun f hf => by_contra fun hne => resetOn_ne_fault devices hne f hf⟩

end Sys2Proof.Machine
end
